-- ==== Sys2Proof/Word.lean ====
section
/-!
DEFINITION. The word and byte types of the block (R7, R9): a word is 32 bits, a byte 8 bits, every value unsigned. The plain
operators of R10 (`&`, `|`, `^`, `~`, `+` modulo 2^32) are those of `BitVec`; the rotations and shifts stand in Machine/Compression.lean.
-/

namespace Sys2Proof

/-- A 32-bit word (R7, R9). -/
abbrev Word := BitVec 32

/-- An 8-bit byte (R9). -/
abbrev Byte := BitVec 8

end Sys2Proof
end

