-- ==== Sys2Proof/Syntax.lean ====
section
/-!
DEFINITION. The commands of the block, one constructor per row of spec/opcode_table.json (R34). The data word that the host sends with
every command (R33) is an operand of UPD alone, the only command that reads it.
-/

namespace Sys2Proof

/-- A command (R34, R37). -/
inductive Instr where
  /-- INIT: construct a new digest context (R67). -/
  | init
  /-- UPD n: absorb the first `n` bytes of the data word (R68); `n` is the ARG field. -/
  | upd (n : BitVec 3) (data : Word)
  /-- FIN: pad the message and finalize (R76). -/
  | fin
  /-- RDD i: read digest word `i` (R85); `i` is the ARG field. -/
  | rdd (i : BitVec 3)
  /-- RDS: read STATUS (R87). -/
  | rds
  deriving DecidableEq, Repr

end Sys2Proof
end

