-- ==== Sys2Proof/WellFormed.lean ====
section
/-!
DEFINITION. Which terms of `Instr` are commands of the block: the legality of ARG (R36).
-/

namespace Sys2Proof

/-- R36: the byte count of UPD is 0, 1, 2, 3 or 4; the word index of RDD may be any of 0..7; INIT, FIN and RDS have no operand. -/
def Instr.wellFormed : Instr → Bool
  | .init => true
  | .upd n _ => decide (n.toNat ≤ 4)
  | .fin => true
  | .rdd _ => true
  | .rds => true

end Sys2Proof
end

