-- ==== Sys2Proof/Decode.lean ====
section
/-!
DEFINITION. The command encoding (30_encoding.md): the decoder of R37, total on all 2^32 command words, and after it the encoder of the
same format. Decoding reads the command word only; the data word is carried along as UPD's operand.
-/

namespace Sys2Proof

/-- Why a command word is ILLEGAL (R35, R36, R37; the block records the one code ILLEGAL for all of them, R91). -/
inductive DecodeError where
  /-- `RSV` (bits 27:3) is not zero (R35). -/
  | reservedNotZero
  /-- `OP` is 0x0 or 0x6..0xF (R34). -/
  | unassignedOpcode
  /-- `ARG` is not zero on INIT, FIN or RDS (R36). -/
  | argNotZero
  /-- `ARG` is 5, 6 or 7 on UPD (R36). -/
  | countTooLarge
  deriving DecidableEq, Repr

/-- `OP = cmd_word[31:28]` (R32). -/
def opField (cmd : Word) : BitVec 4 := cmd.extractLsb' 28 4

/-- `RSV = cmd_word[27:3]` (R32). -/
def rsvField (cmd : Word) : BitVec 25 := cmd.extractLsb' 3 25

/-- `ARG = cmd_word[2:0]` (R32). -/
def argField (cmd : Word) : BitVec 3 := cmd.extractLsb' 0 3

/-- The command of a word whose ARG must be 0 (R36). -/
def decodeNoArg (arg : BitVec 3) (i : Instr) : Except DecodeError Instr :=
  if arg = 0 then .ok i else .error .argNotZero

/-- The command that an opcode and an argument stand for, once RSV is known to be zero (R34, R36). -/
def decodeFields (op : BitVec 4) (arg : BitVec 3) (data : Word) : Except DecodeError Instr :=
  match op.toNat with
  | 1 => decodeNoArg arg .init
  | 2 => if arg.toNat ≤ 4 then .ok (.upd arg data) else .error .countTooLarge
  | 3 => decodeNoArg arg .fin
  | 4 => .ok (.rdd arg)
  | 5 => decodeNoArg arg .rds
  | _ => .error .unassignedOpcode

/-- R37: the command a command word and its data word stand for, or why the word is ILLEGAL. -/
def decode (cmd data : Word) : Except DecodeError Instr :=
  if rsvField cmd ≠ 0 then .error .reservedNotZero else decodeFields (opField cmd) (argField cmd) data

/-- The command word with the fields of R32: `OP`, zero `RSV`, `ARG`. -/
def commandWord (op : BitVec 4) (arg : BitVec 3) : Word := op ++ (0 : BitVec 25) ++ arg

/-- The command word and data word of a command (R34); where the data word is ignored it is written 0 (R40). UPD's data word stands as
it is, ignored lanes included. -/
def encode : Instr → Word × Word
  | .init => (commandWord 1 0, 0)
  | .upd n data => (commandWord 2 n, data)
  | .fin => (commandWord 3 0, 0)
  | .rdd i => (commandWord 4 i, 0)
  | .rds => (commandWord 5 0, 0)

/-- The command word of an instruction given as the number `w` of `nbits` bits: the first 32 of its bits. -/
def tableCommandWord (nbits w : Nat) : Word := BitVec.ofNat 32 (w % 2 ^ nbits)

/-- The data word of an instruction given as the number `w` of `nbits` bits: its bits 63..32, zero above `nbits`. -/
def tableDataWord (nbits w : Nat) : Word := BitVec.ofNat 32 ((w % 2 ^ nbits) / 2 ^ 32)

/-- The instruction the decoder reads from a command whose bits are `w`, numbered as spec/opcode_table.json numbers them. -/
def decodeTableWord (nbits w : Nat) : Option Instr :=
  (decode (tableCommandWord nbits w) (tableDataWord nbits w)).toOption

end Sys2Proof
end

