-- ==== Sys2Proof/Config.lean ====
section
/-!
DEFINITION. What the spec leaves to the implementation or the platform (R8) and the model's free values. Nothing in Lean can evaluate
an opaque constant here, so a statement that uses one holds for every value of it.
-/

namespace Sys2Proof

/-- What byte `a` of the PendingBuffer holds while nothing has written it since reset: a FREE VALUE (R18, R106, U3). Log 5. -/
opaque Config.unwrittenByte : Nat → Byte

/-- One less than `COMPRESS_CYCLES` (R8: the parameter is at least 1). Log 12. -/
opaque Config.compressCyclesLessOne : Nat

/-- One less than `CMD_CYCLES` (R8: the parameter is at least 1). Log 12. -/
opaque Config.cmdCyclesLessOne : Nat

/-- One less than `N_INSTANCES` (R8, R100: the parameter is at least 1). Log 13. -/
opaque Config.instancesLessOne : Nat

/-- `COMPRESS_CYCLES` (R8): clock cycles from the start of one compression to its end. -/
def Config.compressCycles : Nat := Config.compressCyclesLessOne + 1

/-- `CMD_CYCLES` (R8): cycles a command that compresses nothing occupies the core. -/
def Config.cmdCycles : Nat := Config.cmdCyclesLessOne + 1

/-- `N_INSTANCES` (R8, R100): the independent instances of the block on the platform. -/
def Config.instances : Nat := Config.instancesLessOne + 1

end Sys2Proof
end

