-- ==== Sys2Proof/Machine/Compression.lean ====
section
/-!
DEFINITION. The compression core and the message-schedule expander (40_compression_core.md): the pure functions of R46-R60 and the two
constant tables, the IV (R17) and the round constants K (R51). The working variables and the schedule are the local values of
`compress` (R23). The formulas and tables are the spec's, which takes them from FIPS 180-4 (G1-G14).
-/

namespace Sys2Proof.Machine

/-- The initialization vector (R17). -/
def IV : Vector Word 8 :=
  #v[0x6a09e667, 0xbb67ae85, 0x3c6ef372, 0xa54ff53a, 0x510e527f, 0x9b05688c, 0x1f83d9ab, 0x5be0cd19]

/-- Rows 0, 8, 16 and 24 of the round-constant table (R51). -/
def roundConstantsLow : List Word :=
  [0x428a2f98, 0x71374491, 0xb5c0fbcf, 0xe9b5dba5, 0x3956c25b, 0x59f111f1, 0x923f82a4, 0xab1c5ed5] ++
  [0xd807aa98, 0x12835b01, 0x243185be, 0x550c7dc3, 0x72be5d74, 0x80deb1fe, 0x9bdc06a7, 0xc19bf174] ++
  [0xe49b69c1, 0xefbe4786, 0x0fc19dc6, 0x240ca1cc, 0x2de92c6f, 0x4a7484aa, 0x5cb0a9dc, 0x76f988da] ++
  [0x983e5152, 0xa831c66d, 0xb00327c8, 0xbf597fc7, 0xc6e00bf3, 0xd5a79147, 0x06ca6351, 0x14292967]

/-- Rows 32, 40, 48 and 56 of the round-constant table (R51). -/
def roundConstantsHigh : List Word :=
  [0x27b70a85, 0x2e1b2138, 0x4d2c6dfc, 0x53380d13, 0x650a7354, 0x766a0abb, 0x81c2c92e, 0x92722c85] ++
  [0xa2bfe8a1, 0xa81a664b, 0xc24b8b70, 0xc76c51a3, 0xd192e819, 0xd6990624, 0xf40e3585, 0x106aa070] ++
  [0x19a4c116, 0x1e376c08, 0x2748774c, 0x34b0bcb5, 0x391c0cb3, 0x4ed8aa4a, 0x5b9cca4f, 0x682e6ff3] ++
  [0x748f82ee, 0x78a5636f, 0x84c87814, 0x8cc70208, 0x90befffa, 0xa4506ceb, 0xbef9a3f7, 0xc67178f2]

/-- The RoundConstants ROM `K[0..63]` (R51): a constant, not state (R52). -/
def K : List Word := roundConstantsLow ++ roundConstantsHigh

/-- `SHR(x, n)` (R10). -/
def shr (x : Word) (n : Nat) : Word := x >>> n

/-- `ROTR(x, n)` for `0 < n < 32` (R10). -/
def rotr (x : Word) (n : Nat) : Word := (x >>> n) ||| (x <<< (32 - n))

/-- `Ch`, the choose function (R47). -/
def ch (x y z : Word) : Word := (x &&& y) ^^^ (~~~x &&& z)

/-- `Maj`, the majority function (R48). -/
def maj (x y z : Word) : Word := (x &&& y) ^^^ (x &&& z) ^^^ (y &&& z)

/-- `Σ0` (R49). -/
def bigSigma0 (x : Word) : Word := rotr x 2 ^^^ rotr x 13 ^^^ rotr x 22

/-- `Σ1` (R50). -/
def bigSigma1 (x : Word) : Word := rotr x 6 ^^^ rotr x 11 ^^^ rotr x 25

/-- `σ0` (R53). -/
def smallSigma0 (x : Word) : Word := rotr x 7 ^^^ rotr x 18 ^^^ shr x 3

/-- `σ1` (R54). -/
def smallSigma1 (x : Word) : Word := rotr x 17 ^^^ rotr x 19 ^^^ shr x 10

/-- `s[i]` of a byte sequence (R11); 0 past its end, which no rule reads. -/
def byteOf (s : List Byte) (i : Nat) : Byte := s.getD i 0

/-- `word_be(s, i)`: four bytes of `s` from index `i`, most significant first (R11). -/
def wordBe (s : List Byte) (i : Nat) : Word := byteOf s i ++ byteOf s (i + 1) ++ byteOf s (i + 2) ++ byteOf s (i + 3)

/-- The first sixteen schedule words, the big-endian words of the block (R55). -/
def scheduleLoad (block : List Byte) : List Word := (List.range 16).map fun t => wordBe block (4 * t)

/-- `W[t]` from the words before it (R56), with `t` the number of words so far. -/
def scheduleWord (w : List Word) : Word :=
  let t := w.length
  smallSigma1 (w.getD (t - 2) 0) + w.getD (t - 7) 0 + smallSigma0 (w.getD (t - 15) 0) + w.getD (t - 16) 0

/-- `k` more schedule words by the recurrence of R56. -/
def scheduleExpand : Nat → List Word → List Word
  | 0, w => w
  | k + 1, w => scheduleExpand k (w ++ [scheduleWord w])

/-- The message schedule `W[0..63]` of a block (R55, R56). -/
def schedule (block : List Byte) : List Word := scheduleExpand 48 (scheduleLoad block)

/-- The eight working variables of one compression (R23, R57). -/
structure Working where
  a : Word
  b : Word
  c : Word
  d : Word
  e : Word
  f : Word
  g : Word
  h : Word
  deriving DecidableEq, Repr

/-- The working variables before round 0 (R57). -/
def workingInit (hin : Vector Word 8) : Working :=
  { a := hin[0], b := hin[1], c := hin[2], d := hin[3], e := hin[4], f := hin[5], g := hin[6], h := hin[7] }

/-- `T1` of a round with the round constant `k` and the schedule word `w` (R58). -/
def roundT1 (v : Working) (k w : Word) : Word := v.h + bigSigma1 v.e + ch v.e v.f v.g + k + w

/-- `T2` of a round (R58). -/
def roundT2 (v : Working) : Word := bigSigma0 v.a + maj v.a v.b v.c

/-- One round: all eight variables at once, from the old values and `T1`, `T2` (R59). -/
def compressRound (v : Working) (k w : Word) : Working :=
  { a := roundT1 v k w + roundT2 v, b := v.a, c := v.b, d := v.c, e := v.d + roundT1 v k w, f := v.e, g := v.f, h := v.g }

/-- The rounds of the given round constants and schedule words, in order. -/
def rounds (v : Working) (kw : List (Word × Word)) : Working := kw.foldl (fun v kw => compressRound v kw.1 kw.2) v

/-- The feed-forward: the final working variables added back into the state words (R60). -/
def feedForward (hin : Vector Word 8) (v : Working) : Vector Word 8 :=
  #v[hin[0] + v.a, hin[1] + v.b, hin[2] + v.c, hin[3] + v.d, hin[4] + v.e, hin[5] + v.f, hin[6] + v.g, hin[7] + v.h]

/-- `compress(Hin, block)`: the next state after one 64-byte block (R46, R60). -/
def compress (hin : Vector Word 8) (block : List Byte) : Vector Word 8 :=
  feedForward hin (rounds (workingInit hin) (K.zip (schedule block)))

end Sys2Proof.Machine
end

