-- ==== Sys2Proof/Machine/State.lean ====
section
/-!
DEFINITION. The state of the block (10_state.md, R15) as plain data, with the host's side of the two ports (20_memory.md, R25, R26), and
the state after reset (R106). The working variables and the schedule are local to `compress` (R23, log 6); K is a constant (R52).
-/

namespace Sys2Proof.Machine

/-- The PendingBuffer's bytes by index (R27), the block's only memory: cells of strictly rising address below 64 (`Memory.wf`). An
index that is not listed has not been written since reset and holds no value the spec gives (R18, R106). Log 5. -/
abbrev Memory := List Host.Cell

/-- The phase of the digest context (R20). The value 3 of the 2-bit field "is never held". -/
inductive Phase where
  /-- Just constructed: after reset or INIT. -/
  | empty
  /-- After at least one UPD. -/
  | accumulating
  /-- After FIN; only INIT or reset leaves it (R84). -/
  | finalized
  deriving DecidableEq, Repr

/-- The usage faults a command can raise (R91); NONE (code 0) is the absence of one. -/
inductive UsageFault where
  /-- Code 1, any word that decodes as ILLEGAL. -/
  | illegal
  /-- Code 2, UPD in phase Finalized. -/
  | updAfterFinal
  /-- Code 3, FIN in phase Finalized. -/
  | finAfterFinal
  /-- Code 4, RDD outside phase Finalized. -/
  | rddNotFinal
  /-- Code 5, UPD past the BitCounter's range. -/
  | cntOverflow
  deriving DecidableEq, Repr

/-- One offer on the command port (R25, R33): the words on `cmd_word` and `cmd_data`. -/
structure CommandPair where
  word : Word
  data : Word
  deriving DecidableEq, Repr

/-- What the host drives on the block's input ports at one transfer opportunity (R25). Log 1. -/
structure PortInput where
  /-- `rst_n`: `false` asserts reset (R106). -/
  rstN : Bool
  /-- `cmd_valid` with `cmd_word` and `cmd_data`; `none` is `cmd_valid` = 0. -/
  cmd : Option CommandPair
  /-- `rsp_ready`. -/
  rspReady : Bool
  deriving DecidableEq, Repr

/-- The state of one instance of the block (R15), and the host's side of its ports. -/
structure State where
  /-- DigestState `H[0..7]` (R16). -/
  H : Vector Word 8
  /-- PendingBuffer `buf[0..63]` (R18, R27). -/
  buf : Memory
  /-- PendingBuffer length `len` (R18). -/
  len : BitVec 6
  /-- BitCounter `cnt` (R19). -/
  cnt : BitVec 64
  /-- Phase of the context (R20). -/
  phase : Phase
  /-- STATUS.ERR (R21, R90). -/
  err : Bool
  /-- STATUS.ERRCODE (R21, R91). -/
  errCode : BitVec 4
  /-- The response register with its valid bit (R29): `none` when no response is pending. Log 7. -/
  rsp : Option Word
  /-- What the host drives from here on, one sample a step (the model's own field, log 1). -/
  inputs : List PortInput
  /-- The response words the host has taken, oldest first (R26; the model's own field, log 2). -/
  delivered : List Word
  deriving DecidableEq, Repr

/-- Why a step stops the machine with a fault. There is no such reason: a usage fault is recorded in STATUS and the block goes on
(R90), and every accepted command completes (R114). Raised by nothing. Log 8. -/
inductive Fault : Type
  deriving DecidableEq, Repr

/-- Why a command has no meaning. -/
inductive Refusal where
  /-- Raised by an arm of `exec` whose instruction has no meaning yet: none. Safe: the model stops where the block goes on. -/
  | notModelled (mnemonic : String)
  deriving DecidableEq, Repr

/-- The state right after reset (R106). The spec gives the PendingBuffer no value (nothing is listed, log 5); the host's side is empty
(log 1, log 2). -/
def State.reset : State where
  H := IV
  buf := []
  len := 0
  cnt := 0
  phase := .empty
  err := false
  errCode := 0
  rsp := none
  inputs := []
  delivered := []

end Sys2Proof.Machine
end

