-- ==== Sys2Proof/Machine/Flags.lean ====
section
/-!
DEFINITION. The encodings of the STATUS fields and STATUS itself (R20, R21, R91), and the rule by which a usage fault sets ERR and
ERRCODE (R90).
-/

namespace Sys2Proof.Machine

/-- The 2-bit code of a phase: Empty 0, Accumulating 1, Finalized 2 (R20). -/
def Phase.bits : Phase → BitVec 2
  | .empty => 0
  | .accumulating => 1
  | .finalized => 2

/-- The code of a usage fault in ERRCODE (R91). -/
def UsageFault.code : UsageFault → BitVec 4
  | .illegal => 1
  | .updAfterFinal => 2
  | .finAfterFinal => 3
  | .rddNotFinal => 4
  | .cntOverflow => 5

/-- STATUS from its fields: PENDLEN at 13:8, ERRCODE at 7:4, ERR at 3, PHASE at 1:0, zeros elsewhere (R21). -/
def statusFields (len : BitVec 6) (errCode : BitVec 4) (err : Bool) (phase : Phase) : Word :=
  (0 : BitVec 18) ++ len ++ errCode ++ BitVec.ofBool err ++ (0 : BitVec 1) ++ phase.bits

/-- STATUS as RDS reads it (R21, R87). -/
def statusWord (s : State) : Word := statusFields s.len s.errCode s.err s.phase

/-- ERRCODE after a usage fault: the first code since reset is kept (R90). -/
def errCodeAfter (err : Bool) (errCode : BitVec 4) (f : UsageFault) : BitVec 4 := if err then errCode else f.code

end Sys2Proof.Machine
end

