-- ==== Sys2Proof/Machine/Operands.lean ====
section
/-!
DEFINITION. Byte sequences and the operand forms: the big-endian encodings of R11, the byte lanes of UPD's data word (R28 item 4, R33,
R68) and the padding that FIN absorbs (R78).
-/

namespace Sys2Proof.Machine

/-- `be32(w)`: the four bytes of a word, most significant first (R11). -/
def be32 (w : Word) : List Byte := [w.extractLsb' 24 8, w.extractLsb' 16 8, w.extractLsb' 8 8, w.extractLsb' 0 8]

/-- `be64(v)`: the eight bytes of a 64-bit value, most significant first (R11). -/
def be64 (v : BitVec 64) : List Byte := be32 (v.extractLsb' 32 32) ++ be32 (v.extractLsb' 0 32)

/-- The bytes an UPD of `n` bytes takes from its data word: lanes 0..n-1, lane `i` being `data[31-8i : 24-8i]` (R33, R68). -/
def lanes (n : BitVec 3) (data : Word) : List Byte := (be32 data).take n.toNat

/-- The number of zero bytes of the padding, `k = (55 - p) mod 64` (R78), for `p ≤ 63`. -/
def padZeros (p : Nat) : Nat := (119 - p) % 64

/-- `pad(p, L)`: 0x80, the zero bytes, the 64-bit length (R78). -/
def pad (p : Nat) (bits : BitVec 64) : List Byte := [0x80] ++ List.replicate (padZeros p) 0 ++ be64 bits

end Sys2Proof.Machine
end

