-- ==== Sys2Proof/Machine/Ops.lean ====
section
/-!
DEFINITION. The named operations over the state: the PendingBuffer's cells, taking a usage fault (the block's only exception, R90; there
is no trap entry and no trap return, R93, R94), the response register (R29), the absorb step (R69), reset (R106, R107), and what a
sample of the input ports makes the block do (R25).
-/

namespace Sys2Proof.Machine

/-! ## The PendingBuffer's cells -/

/-- The byte listed at index `a`; `none` where nothing has been written. -/
def Memory.read : Memory → Nat → Option Byte
  | [], _ => none
  | (k, b) :: m, a => if a = k then some b else Memory.read m a

/-- The cells after byte `b` is written at index `a`, in rising order. -/
def Memory.write : Memory → Nat → Byte → Memory
  | [], a, b => [(a, b)]
  | (k, c) :: m, a, b =>
    if a < k then (a, b) :: (k, c) :: m else if a = k then (a, b) :: m else (k, c) :: Memory.write m a b

/-- The canonical form of the PendingBuffer's cells: strictly rising addresses, all below 64 (R18). An unlisted index reads as no
value, so no cell can equal what an unlisted index reads as. -/
abbrev Memory.wf (m : Memory) : Prop := (m.map Prod.fst).Pairwise (· < ·) ∧ ∀ c ∈ m, c.1 < 64

/-- The byte a compression reads at index `a`: the one written, else the free value (R18). Log 5. -/
def byteAt (m : Memory) (a : Nat) : Byte := (m.read a).getD (Config.unwrittenByte a)

/-- `buf[0..k-1]`. -/
def bufPrefix (m : Memory) (k : Nat) : List Byte := (List.range k).map (byteAt m)

/-- The 64 bytes a compression reads whole (R27). -/
def blockOf (m : Memory) : List Byte := bufPrefix m 64

/-- The absorbed bytes not yet compressed, `buf[0..len-1]`, in arrival order (R18). -/
def pending (s : State) : List Byte := bufPrefix s.buf s.len.toNat

/-! ## Taking a usage fault -/

/-- `raise UsageFault(code)`: ERRCODE keeps the first code since reset, ERR becomes 1, and nothing else changes (R13, R90). -/
def raiseUsageFault (f : UsageFault) (s : State) : State :=
  { s with err := true, errCode := errCodeAfter s.err s.errCode f }

/-! ## The response register -/

/-- `respond(w)`: load the response register and set its valid bit (R29). -/
def respond (w : Word) (s : State) : State := { s with rsp := some w }

/-- The response port at a sample: the host takes the pending word `w` when `rsp_ready` = 1, which clears the valid bit (R29). -/
def deliver (w : Word) (ready : Bool) (s : State) : State :=
  if ready then { s with rsp := none, delivered := s.delivered ++ [w] } else s

/-! ## The absorb step -/

/-- `absorb(b)`: the only writer of `buf` and the only caller of the compression core (R69). -/
def absorb (b : Byte) (s : State) : State :=
  let buf := s.buf.write s.len.toNat b
  if s.len.toNat + 1 = 64 then { s with H := compress s.H (blockOf buf), buf := buf, len := 0 }
  else { s with buf := buf, len := s.len + 1 }

/-- The absorb step for each byte of a sequence, in order. -/
def absorbAll (bytes : List Byte) (s : State) : State := bytes.foldl (fun s b => absorb b s) s

/-- One byte of padding: the BitCounter takes 8 more, modulo 2^64, and the byte is absorbed (R76, R80). -/
def absorbPadByte (b : Byte) (s : State) : State := absorb b { s with cnt := s.cnt + 8 }

/-- FIN's loop over the padding bytes (R76, R79). -/
def absorbPad (bytes : List Byte) (s : State) : State := bytes.foldl (fun s b => absorbPadByte b s) s

/-! ## Reset and the ports -/

/-- Reset gives exactly the state of R106; an undelivered response is discarded (R107). The host's side stays: what it drives next and
what it has already taken (log 3). -/
def resetBlock (s : State) : State := { State.reset with inputs := s.inputs, delivered := s.delivered }

/-- `cmd_ready` as far as the untimed model shows it (R25): 0 in reset and while a response is undelivered. -/
def cmdReady (i : PortInput) (s : State) : Bool := i.rstN && s.rsp.isNone

/-- `rsp_valid` (R25, R29, R106); `rsp_word` is then the word the response register holds. -/
def rspValid (i : PortInput) (s : State) : Bool := i.rstN && s.rsp.isSome

/-- What one sample of the input ports makes the block do. -/
inductive PortAction where
  /-- `rst_n` = 0 (R106, R107). -/
  | reset
  /-- A response is undelivered, so `cmd_ready` = 0: only the response port can move (R29, R111). -/
  | respondPort (w : Word) (ready : Bool)
  /-- A command transfer: `cmd_valid` and `cmd_ready` are both 1 (R25). -/
  | accept (c : CommandPair)
  /-- No transfer: the block keeps its state (R101). -/
  | idle
  deriving DecidableEq, Repr

/-- The action of a sample: reset overrides every command (R92), an undelivered response blocks the command port (R29). -/
def portAction (i : PortInput) (s : State) : PortAction :=
  if i.rstN then
    match s.rsp with
    | some w => .respondPort w i.rspReady
    | none =>
      match i.cmd with
      | some c => .accept c
      | none => .idle
  else .reset

/-- The host offers the command `c`, and nothing else, at the next transfer opportunity. -/
def offerOnly (c : CommandPair) : PortInput := { rstN := true, cmd := some c, rspReady := false }

/-- `s` with the command `c` offered at the next transfer opportunity and no response left to deliver, so that the very next step
accepts `c`. Log 4. -/
def placeCommand (c : CommandPair) (s : State) : State := { s with rsp := none, inputs := offerOnly c :: s.inputs }

end Sys2Proof.Machine
end

