-- ==== Sys2Proof/Machine/Context.lean ====
section
/-!
DEFINITION. The context commands INIT and UPD (41_context_update.md).
-/

namespace Sys2Proof.Machine

/-- INIT: construct a new digest context; `buf`, ERR and ERRCODE are not written (R67). -/
def execInit (s : State) : Host.Outcome State Fault Refusal :=
  .next { s with H := IV, len := 0, cnt := 0, phase := .empty }

/-- UPD n: the phase check, then the overflow check on the exact sum, then the BitCounter, the bytes in order and the phase (R68, R70,
R92). A count above 4 is the ILLEGAL word it would be on the port (R36, R92; log 15). -/
def execUpd (n : BitVec 3) (data : Word) (s : State) : Host.Outcome State Fault Refusal :=
  if 4 < n.toNat then .next (raiseUsageFault .illegal s)
  else if s.phase = .finalized then .next (raiseUsageFault .updAfterFinal s)
  else if 2 ^ 64 - 1 < s.cnt.toNat + 8 * n.toNat then .next (raiseUsageFault .cntOverflow s)
  else
    .next { absorbAll (lanes n data) { s with cnt := s.cnt + BitVec.ofNat 64 (8 * n.toNat) } with phase := .accumulating }

end Sys2Proof.Machine
end

