-- ==== Sys2Proof/Machine/Finalization.lean ====
section
/-!
DEFINITION. The finalization command FIN (42_finalization.md).
-/

namespace Sys2Proof.Machine

/-- FIN: absorb the padding made from `len` and the BitCounter as FIN finds them (R77), then phase Finalized; the digest is in `H`
(R76). -/
def execFin (s : State) : Host.Outcome State Fault Refusal :=
  if s.phase = .finalized then .next (raiseUsageFault .finAfterFinal s)
  else .next { absorbPad (pad s.len.toNat s.cnt) s with phase := .finalized }

end Sys2Proof.Machine
end

