-- ==== Sys2Proof/Machine/Readout.lean ====
section
/-!
DEFINITION. The read commands RDD and RDS (43_readout.md), the only commands that respond (R29).
-/

namespace Sys2Proof.Machine

/-- `H[i]` (R85). -/
def digestWord (h : Vector Word 8) (i : BitVec 3) : Word := h[i.toNat]'(i.isLt)

/-- RDD i: the digest word in phase Finalized; otherwise the response 0 and the fault RDD_NOT_FINAL (R85). -/
def execRdd (i : BitVec 3) (s : State) : Host.Outcome State Fault Refusal :=
  if s.phase = .finalized then .next (respond (digestWord s.H i) s)
  else .next (raiseUsageFault .rddNotFinal (respond 0 s))

/-- RDS: respond STATUS (R87). -/
def execRds (s : State) : Host.Outcome State Fault Refusal := .next (respond (statusWord s) s)

end Sys2Proof.Machine
end

