-- ==== Sys2Proof/Machine/Dispatch.lean ====
section
/-!
DEFINITION. The case of R66: each command's meaning.
-/

namespace Sys2Proof.Machine

def exec (i : Instr) (s : State) : Host.Outcome State Fault Refusal :=
  match i with
  | .init => Sys2Proof.Machine.execInit s
  | .upd n data => Sys2Proof.Machine.execUpd n data s
  | .fin => Sys2Proof.Machine.execFin s
  | .rdd w => Sys2Proof.Machine.execRdd w s
  | .rds => Sys2Proof.Machine.execRds s

end Sys2Proof.Machine
end

