-- ==== Sys2Proof/Machine/Step.lean ====
section
/-!
DEFINITION. The command step (R66) and the machine's step: one sample of the input ports (R25). With no sample left the host drives
nothing and the block keeps its state (R101).
-/

namespace Sys2Proof.Machine

/-- The step of an accepted command: decode it; an ILLEGAL word raises the usage fault, a command is carried out (R66). -/
def acceptCommand (c : CommandPair) (s : State) : Host.Outcome State Fault Refusal :=
  match Sys2Proof.decode c.word c.data with
  | .ok i => exec i s
  | .error _ => .next (raiseUsageFault .illegal s)

/-- The block's reaction to one sample (R25, R66, R106). -/
def reactTo (i : PortInput) (s : State) : Host.Outcome State Fault Refusal :=
  match portAction i s with
  | .reset => .next (resetBlock s)
  | .respondPort w ready => .next (deliver w ready s)
  | .accept c => acceptCommand c s
  | .idle => .next s

/-- One step of the machine: the next sample is read and the block reacts to it. -/
def step (s : State) : Host.Outcome State Fault Refusal :=
  match s.inputs with
  | [] => .next s
  | i :: rest => reactTo i { s with inputs := rest }

/-- `s` with the instruction whose bits are `w` offered on the command port, so that the very next step accepts and runs it. Log 4. -/
def State.withFetchWord (s : State) (nbits w : Nat) : State :=
  placeCommand { word := Sys2Proof.tableCommandWord nbits w, data := Sys2Proof.tableDataWord nbits w } s

end Sys2Proof.Machine
end

