-- ==== Sys2Proof/Machine/Platform.lean ====
section
/-!
DEFINITION. Several instances of the block on one platform (R100): each has its own whole State; they share the constant K and nothing
else. One instance takes a step at a time, since no order between instances is defined (R31). Log 13.
-/

namespace Sys2Proof.Machine

/-- The instances of a platform, by position. -/
abbrev Platform := List State

/-- A platform right after reset: `N_INSTANCES` instances (R8, R100), each as reset leaves it (R106). -/
def platformReset : Platform := List.replicate Config.instances State.reset

/-- Instance `k` takes a step; a position with no instance takes none. -/
def platformStep (p : Platform) (k : Nat) : Host.Outcome Platform Fault Refusal :=
  match p[k]? with
  | none => .next p
  | some s =>
    match step s with
    | .next t => .next (p.set k t)
    | .fault r => .fault r
    | .refused r => .refused r

end Sys2Proof.Machine
end

