-- ==== Sys2Proof/Machine/Faults.lean ====
section
/-!
DEFINITION. The table of usage faults (R91) in the order of R92, as a function of the command and the state. The meanings of the commands
are written from the commands' own rules and do not use it; statements compare the two.
-/

namespace Sys2Proof.Machine

/-- The usage fault that a command raises in a state, if any: ILLEGAL first, then the phase check, then CNT_OVERFLOW (R91, R92). -/
def usageFaultOf (i : Instr) (s : State) : Option UsageFault :=
  if i.wellFormed then
    match i with
    | .init => none
    | .upd n _ =>
      if s.phase = .finalized then some .updAfterFinal
      else if 2 ^ 64 ≤ s.cnt.toNat + 8 * n.toNat then some .cntOverflow else none
    | .fin => if s.phase = .finalized then some .finAfterFinal else none
    | .rdd _ => if s.phase = .finalized then none else some .rddNotFinal
    | .rds => none
  else some .illegal

/-- The response a command returns, if it is a read command: STATUS, a digest word, or the zero of a faulting RDD (R29, R85, R87). -/
def responseOf (i : Instr) (s : State) : Option Word :=
  match i with
  | .init => none
  | .upd _ _ => none
  | .fin => none
  | .rdd w => if s.phase = .finalized then some (s.H[w.toNat]'(w.isLt)) else some 0
  | .rds => some (statusWord s)

/-- Whether a command is a read command, one that responds (R29). -/
def isRead : Instr → Bool
  | .init => false
  | .upd _ _ => false
  | .fin => false
  | .rdd _ => true
  | .rds => true

end Sys2Proof.Machine
end

