-- ==== Sys2Proof/Machine/Pseudo.lean ====
section
/-!
DEFINITION. The words of the command syntax (R40), the pseudo-commands MSG, RDDIG and HASH (R41, R42), and the samples by which a host
sends commands and takes their responses (R110, R111).
-/

namespace Sys2Proof.Machine

/-- A data word with the lanes from `n` on written 0 (R40). -/
def keepLanes (n : BitVec 3) (data : Word) : Word := (data >>> (32 - 8 * n.toNat)) <<< (32 - 8 * n.toNat)

/-- The command word and data word of one line of the command syntax (R40). -/
def assemble : Instr → CommandPair
  | .init => { word := 0x10000000, data := 0 }
  | .upd n data => { word := 0x20000000 + n.setWidth 32, data := keepLanes n data }
  | .fin => { word := 0x30000000, data := 0 }
  | .rdd i => { word := 0x40000000 + i.setWidth 32, data := 0 }
  | .rds => { word := 0x50000000, data := 0 }

/-- Pseudo-command `MSG`: one UPD of four bytes for each whole word of the sequence, then one UPD of what is left (R41). -/
def msgCommands : List Byte → List Instr
  | [] => []
  | b0 :: b1 :: b2 :: b3 :: rest => .upd 4 (b0 ++ b1 ++ b2 ++ b3) :: msgCommands rest
  | short => [.upd (BitVec.ofNat 3 short.length) (wordBe short 0)]

/-- Pseudo-command `RDDIG`: RDD 0 to RDD 7 (R42). -/
def rddigCommands : List Instr := (List.range 8).map fun i => .rdd (BitVec.ofNat 3 i)

/-- Pseudo-command `HASH`: INIT, MSG, FIN, RDDIG (R42). -/
def hashCommands (m : List Byte) : List Instr := .init :: (msgCommands m ++ .fin :: rddigCommands)

/-- A sample in which the host takes a response and offers no command. -/
def takeOnly : PortInput := { rstN := true, cmd := none, rspReady := true }

/-- The samples by which a host sends one command and, after a read command, takes its response before the next (R110, R111). -/
def driveCommand (i : Instr) : List PortInput :=
  offerOnly (assemble i) :: if isRead i then [takeOnly] else []

/-- The samples by which a host sends a sequence of commands. -/
def driveCommands (is : List Instr) : List PortInput := is.flatMap driveCommand

end Sys2Proof.Machine
end

