-- ==== Sys2Proof/Machine/Reference.lean ====
section
/-!
DEFINITION. What the rules say the commands compute, as functions of byte sequences: the digest of a message (R81, R82) and the source's
two-path update (R68, R72). The command step does not use them; statements compare the two.
-/

namespace Sys2Proof.Machine

/-- The first `k` consecutive 64-byte blocks of a sequence. -/
def cutBlocks : Nat → List Byte → List (List Byte)
  | 0, _ => []
  | k + 1, s => s.take 64 :: cutBlocks k (s.drop 64)

/-- `blocks(s)`: the consecutive 64-byte blocks of a sequence (R82). -/
def blocks (s : List Byte) : List (List Byte) := cutBlocks (s.length / 64) s

/-- The bytes after the last whole block of a sequence. -/
def tailBytes (s : List Byte) : List Byte := s.drop (64 * (s.length / 64))

/-- `fold(compress, h, bs)`: the blocks compressed in order (R82). -/
def compressBlocks (h : Vector Word 8) (bs : List (List Byte)) : Vector Word 8 := bs.foldl compress h

/-- The padded message `M ++ pad(len(M) mod 64, 8·len(M))` (R82). -/
def paddedMessage (m : List Byte) : List Byte := m ++ pad (m.length % 64) (BitVec.ofNat 64 (8 * m.length))

/-- The digest words of a message (R82). -/
def digestWords (m : List Byte) : Vector Word 8 := compressBlocks IV (blocks (paddedMessage m))

/-- `serialize`: the eight state words as big-endian words concatenated (R81). -/
def serialize (h : Vector Word 8) : List Byte := h.toList.flatMap be32

/-- `SHA256(M)` (R82). -/
def sha256 (m : List Byte) : List Byte := serialize (digestWords m)

/-- The source's digest context: the running state and the pending bytes (R72). -/
structure SourceContext where
  H : Vector Word 8
  pending : List Byte
  deriving DecidableEq, Repr

/-- The context of a state of the block. -/
def sourceContext (s : State) : SourceContext := { H := s.H, pending := pending s }

/-- The source's direct path: whole blocks straight from the input, then the tail copied into the PendingBuffer (R68). -/
def directPath (c : SourceContext) (input : List Byte) : SourceContext :=
  { H := compressBlocks c.H (blocks input), pending := c.pending ++ tailBytes input }

/-- The source's update: top up a buffer that is not empty, compress it once full, then the direct path for the rest (R68, R72). An
input too short to fill the buffer is all copied into it (91_not_in_source.md, "Top-up when the input does not fill the buffer"). -/
def sourceUpdate (c : SourceContext) (input : List Byte) : SourceContext :=
  if c.pending.isEmpty then directPath c input
  else if c.pending.length + input.length < 64 then { c with pending := c.pending ++ input }
  else
    directPath { H := compress c.H (c.pending ++ input.take (64 - c.pending.length)), pending := [] }
      (input.drop (64 - c.pending.length))

end Sys2Proof.Machine
end

