-- ==== Sys2Proof/Machine/Timing.lean ====
section
/-!
DEFINITION. The timing facts of the spec (R73, R79, R114, R115) beside the untimed model: the compressions of a command and the bound on
the cycles it occupies the block. No step reads them.
-/

namespace Sys2Proof.Machine

/-- The compressions that absorbing a byte sequence from a state performs, counted step by step over `absorb` (R69). -/
def compressionsIn : List Byte → State → Nat
  | [], _ => 0
  | b :: bs, s => (if s.len.toNat + 1 = 64 then 1 else 0) + compressionsIn bs (absorb b s)

/-- The rows of R115 for a command that raises no usage fault. -/
def compressionsWithoutFault (i : Instr) (len : Nat) : Nat :=
  match i with
  | .init => 0
  | .upd n _ => if 64 ≤ len + n.toNat then 1 else 0
  | .fin => if len ≤ 55 then 1 else 2
  | .rdd _ => 0
  | .rds => 0

/-- The table of R115: the compressions of a command in a state; a command that raises a usage fault performs none. -/
def compressionsOf (i : Instr) (s : State) : Nat :=
  if (usageFaultOf i s).isSome then 0 else compressionsWithoutFault i s.len.toNat

/-- The bound on the cycles a command occupies the block: `CMD_CYCLES + c × COMPRESS_CYCLES` (R114). -/
def cycleBound (i : Instr) (s : State) : Nat := Config.cmdCycles + compressionsOf i s * Config.compressCycles

end Sys2Proof.Machine
end

