-- ==== Sys2Proof/Machine/Units.lean ====
section
/-!
DEFINITION. The units the block is partitioned into (R62, R63, R84), round by round: the sliding-window expander (R23, R56), the
compression-core unit with its working variables and round index, and the padding formatter with its byte index. The command step
uses `compress` and `pad`; statements compare the units with them.
-/

namespace Sys2Proof.Machine

/-- The word that enters the 16-word shift register (R56): the register holds `W[t-16] .. W[t-1]`, oldest first. -/
def windowNext (w : List Word) : Word :=
  smallSigma1 (w.getD 14 0) + w.getD 9 0 + smallSigma0 (w.getD 1 0) + w.getD 0 0

/-- The shift register one round later. -/
def windowShift (w : List Word) : List Word := w.tail ++ [windowNext w]

/-- The words the expander outputs in the next `k` rounds: the oldest of the window each time (R62). -/
def windowOutput : Nat → List Word → List Word
  | 0, _ => []
  | k + 1, w => w.getD 0 0 :: windowOutput k (windowShift w)

/-- The state of the expander and the compression-core unit inside one compression (R62, R63). -/
structure CompressionUnit where
  window : List Word
  working : Working
  t : Nat
  deriving DecidableEq, Repr

/-- The units at the start of a compression: the block's sixteen words, the working variables from `Hin`, round 0. -/
def unitStart (hin : Vector Word 8) (block : List Byte) : CompressionUnit :=
  { window := scheduleLoad block, working := workingInit hin, t := 0 }

/-- One round of the units (R58, R59, R62). -/
def unitRound (u : CompressionUnit) : CompressionUnit :=
  { window := windowShift u.window
    working := compressRound u.working (K.getD u.t 0) (u.window.getD 0 0)
    t := u.t + 1 }

/-- `k` rounds of the units. -/
def unitRounds : Nat → CompressionUnit → CompressionUnit
  | 0, u => u
  | k + 1, u => unitRounds k (unitRound u)

/-- The length of the padding, `1 + k + 8` (R78). -/
def padLength (p : Nat) : Nat := 1 + padZeros p + 8

/-- Byte `j` of the padding formatter's stream (R78, R84). -/
def padByte (p : Nat) (bits : BitVec 64) (j : Nat) : Byte :=
  if j = 0 then 0x80 else if j ≤ padZeros p then 0 else byteOf (be64 bits) (j - 1 - padZeros p)

end Sys2Proof.Machine
end

