-- ==== Sys2Proof/Safety.lean ====
section
/-!
DEFINITION. What claims are stated in terms of: runs without a usage fault, the invariant of the block's states, and the states no host
can tell apart (R88).
-/

namespace Sys2Proof.Machine

/-- No usage fault has occurred since reset: the premise R90 asks of a claim about a command sequence. -/
abbrev FaultFree (s : State) : Prop := s.err = false

/-- Commands carried out one after another, each accepted as soon as the one before it is complete (R24). -/
def execAll : List Instr → State → Host.Outcome State Fault Refusal
  | [], s => .next s
  | i :: is, s =>
    match exec i s with
    | .next t => execAll is t
    | .fault r => .fault r
    | .refused r => .refused r

/-- The UPD commands with the given byte counts and data words, in order. -/
def updCommands (us : List (BitVec 3 × Word)) : List Instr := us.map fun u => .upd u.1 u.2

/-- The bytes that a sequence of UPD commands carries, in order (R68). -/
def updMessage (us : List (BitVec 3 × Word)) : List Byte := us.flatMap fun u => lanes u.1 u.2

/-- Every byte count of a sequence of UPD commands is legal (R36). -/
abbrev UpdLegal (us : List (BitVec 3 × Word)) : Prop := ∀ u ∈ us, u.1.toNat ≤ 4

/-- The PendingBuffer is in canonical form and every pending byte has been written (R18). -/
abbrev BufferSound (s : State) : Prop := s.buf.wf ∧ ∀ a < s.len.toNat, (s.buf.read a).isSome

/-- In phases Empty and Accumulating the BitCounter counts whole bytes and fixes `len` (R19). -/
abbrev CountSound (s : State) : Prop :=
  s.phase ≠ .finalized → 8 ∣ s.cnt.toNat ∧ s.len.toNat = s.cnt.toNat / 8 % 64

/-- Phase Empty is a constructed context (R20, R67, R109) and phase Finalized has no pending byte (R79). -/
abbrev PhaseSound (s : State) : Prop :=
  (s.phase = .empty → s.H = IV ∧ s.cnt = 0) ∧ (s.phase = .finalized → s.len = 0)

/-- ERRCODE is 0 exactly while ERR is 0, and a recorded code is one of 1..5 (R21, R91). -/
abbrev ErrorSound (s : State) : Prop :=
  (s.err = false → s.errCode = 0) ∧ (s.err = true → 1 ≤ s.errCode.toNat ∧ s.errCode.toNat ≤ 5)

/-- The invariant of the block: what every state between two commands satisfies (R18, R19, R20, R21). -/
abbrev Inv (s : State) : Prop := BufferSound s ∧ CountSound s ∧ PhaseSound s ∧ ErrorSound s

/-- Two states that agree on what R88 lists, on the response register and on the host's side of the ports. -/
abbrev Indistinguishable (s t : State) : Prop :=
  s.phase = t.phase ∧ s.len = t.len ∧ s.err = t.err ∧ s.errCode = t.errCode ∧ s.H = t.H ∧
    (s.phase ≠ .finalized → s.cnt = t.cnt ∧ pending s = pending t) ∧
    s.rsp = t.rsp ∧ s.inputs = t.inputs ∧ s.delivered = t.delivered

end Sys2Proof.Machine
end

