-- ==== Sys2Proof/Certificates/Slice0/Obligations.lean ====
section
/-!
DEFINITION. The statements for the provers, from the numbered rules of spec/. Each docstring names the rules it formalises.
-/

open Sys2Proof Sys2Proof.Machine

/-! ## Reset, ports and the step -/

/-- R17, R106: the state after reset (every field the rule gives a value), what STATUS reads then, the ports while `rst_n` = 0, and that
the block accepts a command at once. The response register as an Option is the model's form (log 7). -/
def Obligations.ResetLeavesConstructedContext : Prop :=
  State.reset.H = #v[0x6a09e667, 0xbb67ae85, 0x3c6ef372, 0xa54ff53a, 0x510e527f, 0x9b05688c, 0x1f83d9ab, 0x5be0cd19] ∧
    State.reset.len = 0 ∧ State.reset.cnt = 0 ∧ State.reset.phase = .empty ∧ State.reset.err = false ∧
    State.reset.errCode = 0 ∧ State.reset.rsp = none ∧ statusWord State.reset = 0 ∧
    (∀ (i : PortInput) (s : State), i.rstN = false → cmdReady i s = false ∧ rspValid i s = false) ∧
    (∀ i : PortInput, i.rstN = true → cmdReady i State.reset = true)

/-- R24, R25, R66: when the host offers a command and the block is ready for it, the step accepts it, and if its word decodes to a
command the step is that command's meaning, on the state with the sample read. The list of samples is the model's form of the ports (log
1). -/
def Obligations.StepRunsDecodedCommand : Prop :=
  ∀ (s : State) (i : PortInput) (rest : List PortInput) (c : CommandPair),
    s.inputs = i :: rest → i.rstN = true → s.rsp = none → i.cmd = some c →
    step s = acceptCommand c { s with inputs := rest } ∧
      ∀ j : Instr, decode c.word c.data = .ok j → step s = exec j { s with inputs := rest }

/-- R34, R38, R90: accepting any word but the sixteen legal ones sets ERR, records the code 1 if it is the first fault, and changes
nothing else: no response, no other state. -/
def Obligations.IllegalWordOnlyRecordsFault : Prop :=
  ∀ (c : CommandPair) (s : State),
    c.word ∉ ([0x10000000, 0x20000000, 0x20000001, 0x20000002, 0x20000003, 0x20000004, 0x30000000, 0x40000000, 0x40000001,
      0x40000002, 0x40000003, 0x40000004, 0x40000005, 0x40000006, 0x40000007, 0x50000000] : List Word) →
    acceptCommand c s = .next { s with err := true, errCode := if s.err then s.errCode else 1 }

/-- R107: reset asserted in a sample overrides whatever the sample offers and discards an undelivered response; the state is that of
R106. The PendingBuffer, which R106 leaves unspecified, is not mentioned. That the host's side stays is the model's choice (log 3). -/
def Obligations.ResetOverridesCommands : Prop :=
  ∀ (s : State) (i : PortInput) (rest : List PortInput),
    s.inputs = i :: rest → i.rstN = false →
    ∃ t, step s = .next t ∧ t.H = IV ∧ t.len = 0 ∧ t.cnt = 0 ∧ t.phase = .empty ∧ t.err = false ∧ t.errCode = 0 ∧
      t.rsp = none ∧ t.inputs = rest ∧ t.delivered = s.delivered

/-- R29, R111: RDD and RDS leave a response undelivered; while one is, the command port accepts nothing, whatever the host offers, and
the only movement is the host taking the response, which clears the valid bit. The two host-side lists are the model's (log 1, log 2);
that the sample which takes the response accepts no command is read from R29 (log 18). -/
def Obligations.UndeliveredResponseBlocksCommands : Prop :=
  (∀ (j : Instr) (s : State), isRead j = true → ∃ t w, exec j s = .next t ∧ t.rsp = some w) ∧
  (∀ (s : State) (i : PortInput) (rest : List PortInput) (w : Word),
    s.inputs = i :: rest → i.rstN = true → s.rsp = some w →
    cmdReady i s = false ∧ rspValid i s = true ∧
      (i.rspReady = true → step s = .next { s with inputs := rest, rsp := none, delivered := s.delivered ++ [w] }) ∧
      (i.rspReady = false → step s = .next { s with inputs := rest }))

/-- R25, R101: a command is accepted in a sample exactly when it is offered and the block is ready; with nothing to transfer the block
keeps its state. The list of samples is the model's form of the ports (log 1). -/
def Obligations.CommandTransferNeedsValidAndReady : Prop :=
  (∀ (i : PortInput) (s : State) (c : CommandPair),
    portAction i s = .accept c ↔ i.cmd = some c ∧ cmdReady i s = true) ∧
  (∀ (s : State) (i : PortInput) (rest : List PortInput),
    s.inputs = i :: rest → i.rstN = true → s.rsp = none → i.cmd = none → step s = .next { s with inputs := rest }) ∧
  (∀ s : State, s.inputs = [] → step s = .next s)

/-- R38, R90, R114: no state stops the block: every step answers a next state. That every command completes is the spec's assumption
(R114, log 12). -/
def Obligations.StepAlwaysContinues : Prop := ∀ s : State, ∃ t, step s = .next t

/-! ## Encoding -/

/-- R34, R35, R36: exactly sixteen command words decode to a command, whatever the data word. -/
def Obligations.SixteenLegalWords : Prop :=
  ∀ cmd data : Word, (∃ i, decode cmd data = .ok i) ↔
    cmd ∈ ([0x10000000, 0x20000000, 0x20000001, 0x20000002, 0x20000003, 0x20000004, 0x30000000, 0x40000000, 0x40000001,
      0x40000002, 0x40000003, 0x40000004, 0x40000005, 0x40000006, 0x40000007, 0x50000000] : List Word)

/-- R32, R34, R37: for every well-formed command, with every operand at every value, decoding its encoding gives it back. That the
encoder keeps UPD's ignored lanes is the model's choice (log 16). -/
def Obligations.DecodeOfEncode : Prop :=
  ∀ i : Instr, i.wellFormed = true → decode (encode i).1 (encode i).2 = .ok i

/-- R34, R37: each legal word has one meaning: what a word decodes to is well formed, encodes to that word, and, if it is an UPD, holds
the data word it came with. That the data word 0 is written where it is ignored is R40's (log 16). -/
def Obligations.EncodeOfDecode : Prop :=
  ∀ (cmd data : Word) (i : Instr), decode cmd data = .ok i →
    i.wellFormed = true ∧ (encode i).1 = cmd ∧ (encode i).2 = if opField cmd = 2 then data else 0

/-- R37: the legality of a word does not depend on the data word. -/
def Obligations.LegalityIgnoresData : Prop :=
  ∀ (cmd data data' : Word) (e : DecodeError), decode cmd data = .error e → decode cmd data' = .error e

/-- R43: the spec's encoding examples. -/
def Obligations.EncodingExamplesDecode : Prop :=
  decode 0x20000003 0x61626300 = .ok (.upd 3 0x61626300) ∧ decode 0x40000007 0 = .ok (.rdd 7) ∧
    decode 0x20000005 0 = .error .countTooLarge ∧ decode 0x10000008 0 = .error .reservedNotZero ∧
    decode 0x00000000 0 = .error .unassignedOpcode ∧ decode 0x30000001 0 = .error .argNotZero

/-- R33: the data word of a command other than UPD, and the lanes of UPD's data word from `n` on, have no effect on the step. -/
def Obligations.IgnoredDataHasNoEffect : Prop :=
  ∀ (w d d' : Word) (s : State),
    (opField w = 2 → ∀ k : Nat, k < 4 → k < (argField w).toNat →
      d.extractLsb' (24 - 8 * k) 8 = d'.extractLsb' (24 - 8 * k) 8) →
    acceptCommand { word := w, data := d } s = acceptCommand { word := w, data := d' } s

/-- R40: the words of a line of the command syntax run the command of that line: they decode, and what they decode to acts as it. The
command word is the table's, the lanes of an UPD's data word from `n` on are written 0 and the others hold its bytes, and the data word
of every other command is written 0. -/
def Obligations.AssembledCommandActsAsItself : Prop :=
  (∀ (i : Instr) (s : State), i.wellFormed = true → acceptCommand (assemble i) s = exec i s) ∧
  (∀ i : Instr, i.wellFormed = true → (assemble i).word.toNat =
    (match i with
     | .init => 0x10000000
     | .upd n _ => 0x20000000 + n.toNat
     | .fin => 0x30000000
     | .rdd w => 0x40000000 + w.toNat
     | .rds => 0x50000000)) ∧
  (∀ (n : BitVec 3) (data : Word), n.toNat ≤ 4 → ∀ k < 4,
    (assemble (.upd n data)).data.extractLsb' (24 - 8 * k) 8 = if k < n.toNat then data.extractLsb' (24 - 8 * k) 8 else 0) ∧
  (∀ i : Instr, (∀ n data, i ≠ .upd n data) → (assemble i).data = 0)

/-! ## The compression core -/

/-- R11, R28: `be32`, `be64` and `word_be` are the big-endian encodings, most significant byte first, `word_be` undoing `be32`. -/
def Obligations.BigEndianWords : Prop :=
  (∀ (s : List Byte) (i : Nat) (h : i + 3 < s.length),
    (wordBe s i).toNat = s[i].toNat * 2 ^ 24 + s[i + 1].toNat * 2 ^ 16 + s[i + 2].toNat * 2 ^ 8 + s[i + 3].toNat) ∧
  (∀ w : Word, (be32 w).length = 4 ∧ (∀ k < 4, (be32 w)[k]? = some (w.extractLsb' (24 - 8 * k) 8)) ∧ wordBe (be32 w) 0 = w) ∧
  (∀ v : BitVec 64, (be64 v).length = 8 ∧ ∀ k < 8, (be64 v)[k]? = some (v.extractLsb' (56 - 8 * k) 8))

/-- R47, R48: each bit of Ch is chosen by `x`; each bit of Maj is the majority. -/
def Obligations.ChooseAndMajorityBits : Prop :=
  ∀ (x y z : Word) (i : Nat),
    (ch x y z).getLsbD i = (if x.getLsbD i then y.getLsbD i else z.getLsbD i) ∧
    (maj x y z).getLsbD i =
      ((x.getLsbD i && y.getLsbD i) || (x.getLsbD i && z.getLsbD i) || (y.getLsbD i && z.getLsbD i))

/-- R10, R49, R50, R53, R54: the bits of the four sigma functions. -/
def Obligations.SigmaBits : Prop :=
  ∀ (x : Word) (i : Nat), i < 32 →
    (bigSigma0 x).getLsbD i =
      (x.getLsbD ((i + 2) % 32) ^^ x.getLsbD ((i + 13) % 32) ^^ x.getLsbD ((i + 22) % 32)) ∧
    (bigSigma1 x).getLsbD i =
      (x.getLsbD ((i + 6) % 32) ^^ x.getLsbD ((i + 11) % 32) ^^ x.getLsbD ((i + 25) % 32)) ∧
    (smallSigma0 x).getLsbD i =
      (x.getLsbD ((i + 7) % 32) ^^ x.getLsbD ((i + 18) % 32) ^^ x.getLsbD (i + 3)) ∧
    (smallSigma1 x).getLsbD i =
      (x.getLsbD ((i + 17) % 32) ^^ x.getLsbD ((i + 19) % 32) ^^ x.getLsbD (i + 10))

/-- R17: the words of the IV, each the first 32 bits of the fractional part of the square root of the i-th prime; they are in `H` after
reset and after INIT. -/
def Obligations.InitialHashFromSquareRoots : Prop :=
  IV = #v[0x6a09e667, 0xbb67ae85, 0x3c6ef372, 0xa54ff53a, 0x510e527f, 0x9b05688c, 0x1f83d9ab, 0x5be0cd19] ∧
  (∀ i : Fin 8, IV[i] = BitVec.ofNat 32 (Nat.sqrt (Nat.nth Nat.Prime i * 2 ^ 64))) ∧
  State.reset.H = IV ∧ (∀ s : State, (resetBlock s).H = IV) ∧ ∀ s : State, ∃ t, exec .init s = .next t ∧ t.H = IV

/-- R51: each round constant is the first 32 bits of the fractional part of the cube root of the (t+1)-th prime: with
`r = floor(cbrt(p) · 2^32)`, its low 32 bits. -/
def Obligations.RoundConstantsFromCubeRoots : Prop :=
  K.length = 64 ∧ ∀ t < 64, ∃ r : Nat,
    r ^ 3 ≤ Nat.nth Nat.Prime t * 2 ^ 96 ∧ Nat.nth Nat.Prime t * 2 ^ 96 < (r + 1) ^ 3 ∧ K[t]? = some (BitVec.ofNat 32 r)

/-- R55, R56: the schedule has 64 words, the first sixteen are the block's big-endian words, and the others follow the recurrence. -/
def Obligations.ScheduleFollowsRecurrence : Prop :=
  ∀ block : List Byte, (schedule block).length = 64 ∧
    (∀ t < 16, (schedule block)[t]? = some (wordBe block (4 * t))) ∧
    (∀ t, 16 ≤ t → t < 64 →
      (schedule block)[t]? = some (smallSigma1 ((schedule block).getD (t - 2) 0) + (schedule block).getD (t - 7) 0 +
        smallSigma0 ((schedule block).getD (t - 15) 0) + (schedule block).getD (t - 16) 0))

/-- R57, R58, R59, R60: for any schedule by the rules of R55 and R56 and any 64 rounds by the equations of R58 and R59 that start from
`Hin`, `compress` is `Hin` plus the final working variables, word by word. -/
def Obligations.CompressionFollowsRounds : Prop :=
  ∀ (hin : Vector Word 8) (block : List Byte) (W : Nat → Word) (v : Nat → Working),
    block.length = 64 →
    (∀ t < 16, W t = wordBe block (4 * t)) →
    (∀ t, 16 ≤ t → t < 64 → W t = smallSigma1 (W (t - 2)) + W (t - 7) + smallSigma0 (W (t - 15)) + W (t - 16)) →
    v 0 = { a := hin[0], b := hin[1], c := hin[2], d := hin[3], e := hin[4], f := hin[5], g := hin[6], h := hin[7] } →
    (∀ t < 64,
      let T1 := (v t).h + bigSigma1 (v t).e + ch (v t).e (v t).f (v t).g + K.getD t 0 + W t
      let T2 := bigSigma0 (v t).a + maj (v t).a (v t).b (v t).c
      v (t + 1) = { a := T1 + T2, b := (v t).a, c := (v t).b, d := (v t).c,
                    e := (v t).d + T1, f := (v t).e, g := (v t).f, h := (v t).g }) →
    compress hin block =
      #v[hin[0] + (v 64).a, hin[1] + (v 64).b, hin[2] + (v 64).c, hin[3] + (v 64).d,
         hin[4] + (v 64).e, hin[5] + (v 64).f, hin[6] + (v 64).g, hin[7] + (v 64).h]

/-- R23, R56, R62, R63: the sliding-window expander outputs the schedule, and 64 rounds of the units with the feed-forward compute
`compress`. -/
def Obligations.UnitsComputeCompression : Prop :=
  ∀ (hin : Vector Word 8) (block : List Byte),
    windowOutput 64 (scheduleLoad block) = schedule block ∧
      feedForward hin (unitRounds 64 (unitStart hin block)).working = compress hin block

/-! ## INIT and UPD -/

/-- R67: INIT, in every phase: the new context, and nothing else changed; its word is 0x10000000, with any data word. -/
def Obligations.InitConstructsContext : Prop :=
  ∀ (data : Word) (s : State), decode 0x10000000 data = .ok .init ∧ exec .init s = .next { s with
    H := #v[0x6a09e667, 0xbb67ae85, 0x3c6ef372, 0xa54ff53a, 0x510e527f, 0x9b05688c, 0x1f83d9ab, 0x5be0cd19]
    len := 0, cnt := 0, phase := .empty }

/-- R67, R106: INIT leaves ERR, ERRCODE and the response register alone, and once these are cleared the state it gives is, to any host,
the one reset gives. The comparison takes in the host's side, which INIT does not touch and which reset keeps by the model's reading
(log 3); it leaves out the PendingBuffer's bytes, of which none is pending. -/
def Obligations.InitIsResetOfContext : Prop :=
  ∀ s t : State, exec .init s = .next t →
    t.err = s.err ∧ t.errCode = s.errCode ∧ t.rsp = s.rsp ∧
      Indistinguishable { t with err := false, errCode := 0, rsp := none } (resetBlock s)

/-- R68, R69: an UPD whose bytes leave the block unfilled: they go to `buf[len..]` in lane order, `len`, `cnt` and the phase advance, and
everything else, every other byte of the PendingBuffer included, is unchanged. -/
def Obligations.UpdStoresIntoRoom : Prop :=
  ∀ (n : BitVec 3) (data : Word) (s : State),
    n.toNat ≤ 4 → s.phase ≠ .finalized → s.cnt.toNat + 8 * n.toNat ≤ 2 ^ 64 - 1 → s.len.toNat + n.toNat < 64 →
    ∃ t, exec (.upd n data) s = .next t ∧
      (∀ k < n.toNat, t.buf.read (s.len.toNat + k) = some (data.extractLsb' (24 - 8 * k) 8)) ∧
      (∀ a, a < s.len.toNat ∨ s.len.toNat + n.toNat ≤ a → t.buf.read a = s.buf.read a) ∧
      t.len.toNat = s.len.toNat + n.toNat ∧ t.cnt.toNat = s.cnt.toNat + 8 * n.toNat ∧ t.phase = .accumulating ∧
      t.H = s.H ∧ t.err = s.err ∧ t.errCode = s.errCode ∧ t.rsp = s.rsp ∧ t.inputs = s.inputs ∧ t.delivered = s.delivered

/-- R68, R69, R73: an UPD whose bytes fill the block: the pending bytes and the first `64 - len` new ones are compressed into `H`, the
rest start the next block, and everything else is unchanged. The bytes stored to are those at `(len + k) mod 64`. -/
def Obligations.UpdFillsBlock : Prop :=
  ∀ (n : BitVec 3) (data : Word) (s : State),
    n.toNat ≤ 4 → s.phase ≠ .finalized → s.cnt.toNat + 8 * n.toNat ≤ 2 ^ 64 - 1 → 64 ≤ s.len.toNat + n.toNat →
    ∃ t, exec (.upd n data) s = .next t ∧
      t.H = compress s.H (pending s ++ (lanes n data).take (64 - s.len.toNat)) ∧
      pending t = (lanes n data).drop (64 - s.len.toNat) ∧ t.len.toNat = s.len.toNat + n.toNat - 64 ∧
      (∀ a, (∀ k < n.toNat, a ≠ (s.len.toNat + k) % 64) → t.buf.read a = s.buf.read a) ∧
      t.cnt.toNat = s.cnt.toNat + 8 * n.toNat ∧ t.phase = .accumulating ∧
      t.err = s.err ∧ t.errCode = s.errCode ∧ t.rsp = s.rsp ∧ t.inputs = s.inputs ∧ t.delivered = s.delivered

/-- R74 item 1: UPD 0 outside phase Finalized only makes the phase Accumulating. -/
def Obligations.UpdZeroOnlyMovesPhase : Prop :=
  ∀ (data : Word) (s : State), s.phase ≠ .finalized → exec (.upd 0 data) s = .next { s with phase := .accumulating }

/-- R68, R91: an UPD in phase Finalized, UPD 0 included and whatever `cnt` holds, only raises UPD_AFTER_FINAL. -/
def Obligations.UpdAfterFinalFaults : Prop :=
  ∀ (n : BitVec 3) (data : Word) (s : State), n.toNat ≤ 4 → s.phase = .finalized →
    exec (.upd n data) s = .next { s with err := true, errCode := if s.err then s.errCode else 2 }

/-- R70: an UPD that would take the BitCounter past 2^64 - 1 only raises CNT_OVERFLOW. -/
def Obligations.UpdOverflowFaults : Prop :=
  ∀ (n : BitVec 3) (data : Word) (s : State),
    n.toNat ≤ 4 → s.phase ≠ .finalized → 2 ^ 64 - 1 < s.cnt.toNat + 8 * n.toNat →
    exec (.upd n data) s = .next { s with err := true, errCode := if s.err then s.errCode else 5 }

/-- R71 (and C5): two sequences of UPDs that carry the same bytes leave the same state, if neither is empty and the count does not
overflow; and UPDs that carry no byte leave everything but the phase as no UPD at all does, so that FIN gives the same state. -/
def Obligations.ChunkingInvariance : Prop :=
  (∀ (us vs : List (BitVec 3 × Word)) (s : State),
    UpdLegal us → UpdLegal vs → us ≠ [] → vs ≠ [] → updMessage us = updMessage vs →
    s.phase ≠ .finalized → s.cnt.toNat + 8 * (updMessage us).length ≤ 2 ^ 64 - 1 →
    ∃ t, execAll (updCommands us) s = .next t ∧ execAll (updCommands vs) s = .next t ∧ t.err = s.err) ∧
  (∀ (us : List (BitVec 3 × Word)) (s : State),
    UpdLegal us → us ≠ [] → updMessage us = [] → s.phase ≠ .finalized →
    execAll (updCommands us) s = .next { s with phase := .accumulating } ∧
    execAll (updCommands us ++ [.fin]) s = exec .fin s)

/-- R72: for every context and every input slice, the byte path gives the same running state and the same pending bytes as the source's
two-path update. The source's update is the model's reading of it (log 19). -/
def Obligations.TwoPathUpdateIsBytePath : Prop :=
  ∀ (input : List Byte) (s : State), sourceContext (absorbAll input s) = sourceUpdate (sourceContext s) input

/-- R19: after INIT and UPDs that carry the bytes `M`, the BitCounter is 8 times their number and `len` is their number modulo 64. -/
def Obligations.CounterIsMessageLength : Prop :=
  ∀ (us : List (BitVec 3 × Word)) (s : State), UpdLegal us → 8 * (updMessage us).length ≤ 2 ^ 64 - 1 →
    ∃ t, execAll (.init :: updCommands us) s = .next t ∧
      t.cnt.toNat = 8 * (updMessage us).length ∧ t.len.toNat = (updMessage us).length % 64

/-! ## FIN -/

/-- R78: the padding is 0x80, then the least number of zero bytes that brings the total to 56 modulo 64, then the length; its length is
`64 - p` or `128 - p`. -/
def Obligations.PaddingFormat : Prop :=
  ∀ (p : Nat) (L : BitVec 64), p ≤ 63 →
    ∃ k, pad p L = [0x80] ++ List.replicate k 0 ++ be64 L ∧ (p + 1 + k) % 64 = 56 ∧
      (∀ j < k, (p + 1 + j) % 64 ≠ 56) ∧ k = (if p ≤ 55 then 55 - p else 119 - p) ∧
      (pad p L).length = (if p ≤ 55 then 64 - p else 128 - p)

/-- R84: the padding formatter's stream, byte by byte, is the padding. -/
def Obligations.PaddingFormatterStream : Prop :=
  ∀ (p : Nat) (L : BitVec 64), p ≤ 63 → (List.range (padLength p)).map (padByte p L) = pad p L

/-- R76, R77, R79, R80: FIN outside phase Finalized: one compression when `len ≤ 55`, of the pending bytes with the padding, and two
when `len ≥ 56`; `len` is 0, `cnt` has the padding's bits added modulo 2^64, the phase is Finalized, and nothing else changes. The bytes
of the PendingBuffer stored to are `len..63`, and with two compressions all of 0..63. The value of `cnt` after FIN is the one R80 gives
and the model keeps (log 10). -/
def Obligations.FinPadsAndFinalizes : Prop :=
  ∀ s : State, s.phase ≠ .finalized →
    ∃ t, exec .fin s = .next t ∧
      (s.len.toNat ≤ 55 →
        t.H = compress s.H (pending s ++ [0x80] ++ List.replicate (55 - s.len.toNat) 0 ++ be64 s.cnt) ∧
        t.cnt.toNat = (s.cnt.toNat + 8 * (64 - s.len.toNat)) % 2 ^ 64 ∧
        ∀ a, a < s.len.toNat ∨ 64 ≤ a → t.buf.read a = s.buf.read a) ∧
      (56 ≤ s.len.toNat →
        t.H = compress (compress s.H (pending s ++ [0x80] ++ List.replicate (63 - s.len.toNat) 0))
          (List.replicate 56 0 ++ be64 s.cnt) ∧
        t.cnt.toNat = (s.cnt.toNat + 8 * (128 - s.len.toNat)) % 2 ^ 64 ∧
        ∀ a, 64 ≤ a → t.buf.read a = s.buf.read a) ∧
      t.len = 0 ∧ t.phase = .finalized ∧
      t.err = s.err ∧ t.errCode = s.errCode ∧ t.rsp = s.rsp ∧ t.inputs = s.inputs ∧ t.delivered = s.delivered

/-- R76, R91: FIN in phase Finalized only raises FIN_AFTER_FINAL; `H` is unchanged, so the digest stays readable. -/
def Obligations.FinAfterFinalFaults : Prop :=
  ∀ s : State, s.phase = .finalized →
    exec .fin s = .next { s with err := true, errCode := if s.err then s.errCode else 3 }

/-- R82: for a message sent after INIT in any split into UPDs and then FIN, from any state, `H` is the SHA-256 of the message and no
fault is raised. -/
def Obligations.DigestOfMessage : Prop :=
  ∀ (us : List (BitVec 3 × Word)) (s : State), UpdLegal us → 8 * (updMessage us).length ≤ 2 ^ 64 - 1 →
    ∃ t, execAll (.init :: (updCommands us ++ [.fin])) s = .next t ∧
      t.H = digestWords (updMessage us) ∧ serialize t.H = sha256 (updMessage us) ∧
      t.phase = .finalized ∧ t.err = s.err ∧ t.errCode = s.errCode

/-- R73, R79, R115: the compressions of a command by the table are those its bytes cause when they are absorbed, and those of a whole
message are its padded blocks. An UPD of more than four bytes, which no word decodes to, counts as faulting by the model's choice (log
15). -/
def Obligations.CompressionCounts : Prop :=
  (∀ (n : BitVec 3) (data : Word) (s : State), usageFaultOf (.upd n data) s = none →
    compressionsIn (lanes n data) s = (s.len.toNat + n.toNat) / 64 ∧
    compressionsOf (.upd n data) s = compressionsIn (lanes n data) s) ∧
  (∀ s : State, usageFaultOf .fin s = none →
    compressionsIn (pad s.len.toNat s.cnt) s = (if s.len.toNat ≤ 55 then 1 else 2) ∧
    compressionsOf .fin s = compressionsIn (pad s.len.toNat s.cnt) s) ∧
  (∀ (i : Instr) (s : State), (usageFaultOf i s).isSome = true ∨ i = .init ∨ isRead i = true → compressionsOf i s = 0) ∧
  (∀ m : List Byte, (blocks (paddedMessage m)).length = m.length / 64 + if m.length % 64 ≤ 55 then 1 else 2)

/-- R114, R115: the cycle bound of a command is `CMD_CYCLES` and one `COMPRESS_CYCLES` for each compression of the bytes it absorbs,
counted over its absorb steps: an UPD that does not fault absorbs its lanes and a FIN that does not fault its padding, which is what
makes their `H`; INIT, the reads and a command that faults absorb nothing and write no byte of the PendingBuffer. The step is untimed
and the two parameters are opaque constants (log 12). The third clause includes the terms `upd 5..7`, which no word decodes to and whose
faulting meaning is the model's choice (log 15). -/
def Obligations.CycleBoundCountsCompressions : Prop :=
  (∀ (n : BitVec 3) (data : Word) (s : State), usageFaultOf (.upd n data) s = none →
    (∃ t, exec (.upd n data) s = .next t ∧ t.H = (absorbAll (lanes n data) s).H ∧ t.buf = (absorbAll (lanes n data) s).buf) ∧
    cycleBound (.upd n data) s = Config.cmdCycles + compressionsIn (lanes n data) s * Config.compressCycles) ∧
  (∀ s : State, usageFaultOf .fin s = none →
    (∃ t, exec .fin s = .next t ∧ t.H = (absorbAll (pad s.len.toNat s.cnt) s).H ∧
      t.buf = (absorbAll (pad s.len.toNat s.cnt) s).buf) ∧
    cycleBound .fin s = Config.cmdCycles + compressionsIn (pad s.len.toNat s.cnt) s * Config.compressCycles) ∧
  (∀ (i : Instr) (s : State), (usageFaultOf i s).isSome = true ∨ isRead i = true →
    (∃ t, exec i s = .next t ∧ t.H = s.H ∧ t.buf = s.buf) ∧ cycleBound i s = Config.cmdCycles) ∧
  (∀ s : State, (∃ t, exec .init s = .next t ∧ t.H = IV ∧ t.buf = s.buf) ∧ cycleBound .init s = Config.cmdCycles)

/-! ## RDD and RDS -/

/-- R85: RDD i in phase Finalized responds `H[i]` and changes nothing else. -/
def Obligations.RddReturnsDigestWord : Prop :=
  ∀ (i : BitVec 3) (s : State), s.phase = .finalized →
    exec (.rdd i) s = .next { s with rsp := some (s.H[i.toNat]'i.isLt) }

/-- R85, R91: RDD outside phase Finalized responds 0, raises RDD_NOT_FINAL and changes nothing else. -/
def Obligations.RddBeforeFinalFaults : Prop :=
  ∀ (i : BitVec 3) (s : State), s.phase ≠ .finalized →
    exec (.rdd i) s = .next { s with rsp := some 0, err := true, errCode := if s.err then s.errCode else 4 }

/-- R21, R87: RDS, in every phase, responds STATUS, with each field at its bits, and changes nothing else; its word is 0x50000000, with
any data word. -/
def Obligations.RdsReturnsStatus : Prop :=
  ∀ (data : Word) (s : State), decode 0x50000000 data = .ok .rds ∧ ∃ w : Word, exec .rds s = .next { s with rsp := some w } ∧
    w.extractLsb' 0 2 = (match s.phase with | .empty => 0 | .accumulating => 1 | .finalized => 2) ∧
    w.getLsbD 2 = false ∧ w.getLsbD 3 = s.err ∧ w.extractLsb' 4 4 = s.errCode ∧ w.extractLsb' 8 6 = s.len ∧
    w.extractLsb' 14 18 = 0

/-- R81, R86: the digest is 32 bytes, its byte `4i + k` is byte `k` of `H[i]`, and the bytes `4i .. 4i+3` are `be32` of what RDD i
responds. -/
def Obligations.DigestSerialization : Prop :=
  (∀ h : Vector Word 8, (serialize h).length = 32 ∧
    ∀ (i : Nat) (hi : i < 8) (k : Nat), k < 4 →
      (serialize h)[4 * i + k]? = some (h[i].extractLsb' (24 - 8 * k) 8)) ∧
  (∀ (i : BitVec 3) (s : State), s.phase = .finalized →
    ∃ t w, exec (.rdd i) s = .next t ∧ t.rsp = some w ∧ ((serialize s.H).drop (4 * i.toNat)).take 4 = be32 w)

/-- R29: only RDD and RDS respond, each exactly once, including when RDD faults; every other command leaves the response register alone.
It includes the terms `upd 5..7`, which no word decodes to and whose meaning is the model's choice (log 15). -/
def Obligations.OnlyReadsRespond : Prop :=
  ∀ (i : Instr) (s t : State), exec i s = .next t →
    t.rsp = if isRead i then responseOf i s else s.rsp

/-- R30: a read has no effect on the digest context, and the same read again, after its response is taken, responds the same word. -/
def Obligations.ReadsAreIdempotent : Prop :=
  ∀ (i : Instr) (s t : State), isRead i = true → exec i s = .next t →
    t.H = s.H ∧ t.buf = s.buf ∧ t.len = s.len ∧ t.cnt = s.cnt ∧ t.phase = s.phase ∧
      ∃ u, exec i { t with rsp := none } = .next u ∧ u.rsp = t.rsp

/-- R42, R82, R86, R111: a host that drives the pseudo-command HASH on the ports, taking each response before the next command, from any
state with no response pending, ends with the eight digest words delivered, and their bytes are the digest. The samples and the
delivered list are the model's form of the ports (log 1, log 2). -/
def Obligations.HashPseudoCommandDeliversDigest : Prop :=
  ∀ (m : List Byte) (s : State) (rest : List PortInput),
    8 * m.length ≤ 2 ^ 64 - 1 → s.rsp = none → s.inputs = driveCommands (hashCommands m) ++ rest →
    ∃ t : State, Host.Core.run Sys2Proof.core (driveCommands (hashCommands m)).length s = .next t ∧
      t.delivered = s.delivered ++ (digestWords m).toList ∧
      (t.delivered.drop s.delivered.length).flatMap be32 = sha256 m ∧
      t.inputs = rest ∧ t.rsp = none ∧ t.phase = .finalized ∧ t.err = s.err ∧ t.errCode = s.errCode

/-! ## Usage faults, phases and whole-machine rules -/

/-- R13, R90, R91, R92: a command raises exactly the fault of the table; a fault sets ERR, keeps the first code and changes nothing else
but for the zero response of RDD; a command that raises none leaves ERR and ERRCODE alone; and a word that is no command raises
ILLEGAL. -/
def Obligations.UsageFaultTable : Prop :=
  (∀ (i : Instr) (s : State), i.wellFormed = true →
    (∀ f, usageFaultOf i s = some f →
      exec i s = .next { s with err := true, errCode := if s.err then s.errCode else f.code,
                                rsp := if isRead i then some 0 else s.rsp }) ∧
    (usageFaultOf i s = none → ∃ t, exec i s = .next t ∧ t.err = s.err ∧ t.errCode = s.errCode)) ∧
  (∀ (c : CommandPair) (e : DecodeError) (s : State), decode c.word c.data = .error e →
    acceptCommand c s = .next { s with err := true, errCode := if s.err then s.errCode else 1 })

/-- R90, R94: no step clears ERR or changes a recorded ERRCODE, unless it is a reset. -/
def Obligations.ErrorIsStickyUntilReset : Prop :=
  ∀ s t : State, step s = .next t → (∀ i rest, s.inputs = i :: rest → i.rstN = true) → s.err = true →
    t.err = true ∧ t.errCode = s.errCode

/-- R20: the encoding of the phase, and its transitions: INIT and reset to Empty, an UPD that does not fault to Accumulating, a FIN that
does not fault to Finalized, and no other command and no illegal word changes it. -/
def Obligations.PhaseTransitions : Prop :=
  (Phase.empty.bits = 0 ∧ Phase.accumulating.bits = 1 ∧ Phase.finalized.bits = 2 ∧ ∀ p : Phase, p.bits ≠ 3) ∧
  (∀ s : State, (resetBlock s).phase = .empty) ∧
  (∀ (i : Instr) (s t : State), i.wellFormed = true → exec i s = .next t →
    t.phase =
      (match usageFaultOf i s, i with
       | none, .init => .empty
       | none, .upd _ _ => .accumulating
       | none, .fin => .finalized
       | _, _ => s.phase)) ∧
  (∀ (c : CommandPair) (e : DecodeError) (s t : State), decode c.word c.data = .error e → acceptCommand c s = .next t →
    t.phase = s.phase)

/-- R84: phase Finalized is terminal: only INIT or reset leaves it, and until then the digest in `H` stays. -/
def Obligations.FinalizedIsTerminal : Prop :=
  ∀ s t : State, step s = .next t → s.phase = .finalized →
    (∀ i rest, s.inputs = i :: rest → i.rstN = true) →
    (∀ i rest c, s.inputs = i :: rest → i.cmd = some c → c.word ≠ 0x10000000) →
    t.phase = .finalized ∧ t.H = s.H

/-- R16: `H` is written only by INIT, by a FIN that does not fault and by an UPD that completes a block; no other command changes it. It
includes the terms `upd 5..7`, which no word decodes to and whose meaning is the model's choice (log 15). -/
def Obligations.HashWrittenOnlyByCompressionOrInit : Prop :=
  ∀ (i : Instr) (s t : State), exec i s = .next t → t.H ≠ s.H →
    i = .init ∨ (i = .fin ∧ s.phase ≠ .finalized) ∨
      ∃ n data, i = .upd n data ∧ s.phase ≠ .finalized ∧ 64 ≤ s.len.toNat + n.toNat

/-- R18, R19, R20, R21: every step keeps the invariant, from every state that meets it. That an unwritten byte is not listed is the
model's form of the PendingBuffer (log 5). -/
def Obligations.StepKeepsInvariant : Prop := ∀ s t : State, Inv s → step s = .next t → Inv t

/-- R106: the state after reset meets the invariant. -/
def Obligations.ResetMeetsInvariant : Prop := Inv State.reset

/-- R88: two states that agree on what R88 lists (and on the response register and the host's side, in the model's form: logs 1, 2 and 7)
are indistinguishable now and after any number of steps, whatever the host drives: the responses, STATUS and both handshakes never tell
them apart, and the bytes `buf[len..63]` are never seen. -/
def Obligations.HiddenStateIsUnobservable : Prop :=
  ∀ (n : Nat) (s t : State), Indistinguishable s t →
    ∃ s' t' : State, Host.Core.run Sys2Proof.core n s = .next s' ∧ Host.Core.run Sys2Proof.core n t = .next t' ∧
      Indistinguishable s' t' ∧ statusWord s' = statusWord t' ∧ s'.delivered = t'.delivered ∧
      ∀ i : PortInput, cmdReady i s' = cmdReady i t' ∧ rspValid i s' = rspValid i t'

/-- R100: a step of one instance changes no other instance. Which instance steps is an argument, the model's choice (log 13). -/
def Obligations.InstancesAreIsolated : Prop :=
  ∀ (p q : Platform) (k : Nat), platformStep p k = .next q →
    q.length = p.length ∧ (∀ j, j ≠ k → q[j]? = p[j]?) ∧
      ∀ s, p[k]? = some s → ∃ t, step s = .next t ∧ q[k]? = some t
end

