-- ==== Sys2Proof/Laws/Blocks.lean ====
section
/-!
SUPPORT. The laws of cutting a byte sequence into 64-byte blocks (R82).
-/

namespace Sys2Proof.Machine

@[simp] theorem cutBlocks_length (k : Nat) (s : List Byte) : (cutBlocks k s).length = k := by
  induction k generalizing s with
  | zero => rfl
  | succ k ih => simp [cutBlocks, ih]

theorem blocks_length (s : List Byte) : (blocks s).length = s.length / 64 := by simp [blocks]

/-- A sequence shorter than a block has no block and is all tail. -/
theorem blocks_of_short {s : List Byte} (h : s.length < 64) : blocks s = [] := by
  rw [blocks, Nat.div_eq_of_lt h, cutBlocks]

theorem tailBytes_of_short {s : List Byte} (h : s.length < 64) : tailBytes s = s := by
  rw [tailBytes, Nat.div_eq_of_lt h, Nat.mul_zero, List.drop_zero]

/-- A whole block in front is the first block of the sequence. -/
theorem blocks_append {x : List Byte} (h : x.length = 64) (y : List Byte) : blocks (x ++ y) = x :: blocks y := by
  have hl : (x ++ y).length / 64 = y.length / 64 + 1 := by rw [List.length_append]; omega
  rw [blocks, hl, cutBlocks, List.take_left' h, List.drop_left' h, blocks]

theorem tailBytes_append {x : List Byte} (h : x.length = 64) (y : List Byte) : tailBytes (x ++ y) = tailBytes y := by
  have hl : 64 * ((x ++ y).length / 64) = x.length + 64 * (y.length / 64) := by rw [List.length_append]; omega
  rw [tailBytes, hl, ← List.drop_drop, List.drop_left, tailBytes]

theorem tailBytes_length (s : List Byte) : (tailBytes s).length = s.length % 64 := by
  rw [tailBytes, List.length_drop]; omega

end Sys2Proof.Machine
end

