-- ==== Sys2Proof/Laws/Memory.lean ====
section
/-!
SUPPORT. The laws of the PendingBuffer's cells: a read after a write, the canonical form, and the bytes `buf[0..k-1]` after a write.
-/

namespace Sys2Proof.Machine

/-- A read after a write: the byte written at its own index, the old contents elsewhere. -/
theorem Memory.read_write (m : Memory) (a : Nat) (b : Byte) (k : Nat) :
    Memory.read (Memory.write m a b) k = if k = a then some b else Memory.read m k := by
  induction m with
  | nil => simp only [Memory.write, Memory.read]
  | cons c m ih =>
    obtain ⟨j, x⟩ := c
    simp only [Memory.write]
    split
    · simp only [Memory.read]
    · split
      · rename_i h
        subst h
        simp only [Memory.read]
        split <;> rfl
      · simp only [Memory.read, ih]
        split <;> split <;> simp_all

/-- Every address a write leaves in the cells was there before or is the one written. -/
theorem Memory.mem_write {m : Memory} {a : Nat} {b : Byte} {c : Host.Cell} (h : c ∈ Memory.write m a b) :
    c = (a, b) ∨ c ∈ m := by
  induction m with
  | nil => simpa [Memory.write] using h
  | cons d m ih =>
    obtain ⟨j, x⟩ := d
    simp only [Memory.write] at h
    split at h
    · simpa using h
    · split at h
      · rcases List.mem_cons.mp h with h | h
        · exact .inl h
        · exact .inr (List.mem_cons_of_mem _ h)
      · rcases List.mem_cons.mp h with h | h
        · exact .inr (h ▸ List.mem_cons_self)
        · exact (ih h).imp_right (List.mem_cons_of_mem _)

/-- Writing keeps the addresses strictly rising. -/
theorem Memory.write_rising {m : Memory} (h : (m.map Prod.fst).Pairwise (· < ·)) (a : Nat) (b : Byte) :
    ((Memory.write m a b).map Prod.fst).Pairwise (· < ·) := by
  induction m with
  | nil => simp [Memory.write]
  | cons c m ih =>
    obtain ⟨j, x⟩ := c
    simp only [List.map_cons, List.pairwise_cons] at h
    simp only [Memory.write]
    split
    · rename_i haj
      simp only [List.map_cons, List.pairwise_cons, List.mem_cons]
      refine ⟨?_, h.1, h.2⟩
      rintro k (rfl | hk)
      · exact haj
      · exact haj.trans (h.1 k hk)
    · split
      · rename_i haj
        subst haj
        exact List.pairwise_cons.mpr h
      · rename_i h1 h2
        simp only [List.map_cons, List.pairwise_cons]
        refine ⟨fun k hk => ?_, ih h.2⟩
        obtain ⟨c, hc, rfl⟩ := List.mem_map.mp hk
        rcases Memory.mem_write hc with rfl | hc
        · simp only; omega
        · exact h.1 _ (List.mem_map_of_mem hc)

/-- Writing a byte of the PendingBuffer keeps the canonical form. -/
theorem Memory.write_wf {m : Memory} (h : m.wf) {a : Nat} (ha : a < 64) (b : Byte) : (Memory.write m a b).wf := by
  refine ⟨Memory.write_rising h.1 a b, fun c hc => ?_⟩
  rcases Memory.mem_write hc with rfl | hc
  · exact ha
  · exact h.2 c hc

/-- The empty cell list is canonical. -/
theorem Memory.nil_wf : Memory.wf [] := ⟨List.Pairwise.nil, by simp⟩

/-- The byte read after a write. -/
theorem byteAt_write (m : Memory) (a : Nat) (b : Byte) (k : Nat) :
    byteAt (Memory.write m a b) k = if k = a then b else byteAt m k := by
  simp only [byteAt, Memory.read_write]
  split <;> rfl

@[simp] theorem bufPrefix_length (m : Memory) (k : Nat) : (bufPrefix m k).length = k := by simp [bufPrefix]

@[simp] theorem bufPrefix_zero (m : Memory) : bufPrefix m 0 = [] := rfl

theorem bufPrefix_succ (m : Memory) (k : Nat) : bufPrefix m (k + 1) = bufPrefix m k ++ [byteAt m k] := by
  simp [bufPrefix, List.range_succ]

/-- A write at or above index `k` leaves `buf[0..k-1]` as it was. -/
theorem bufPrefix_write_of_le (m : Memory) {a k : Nat} (h : k ≤ a) (b : Byte) :
    bufPrefix (Memory.write m a b) k = bufPrefix m k := by
  simp only [bufPrefix, List.map_inj_left, List.mem_range]
  intro i hi
  rw [byteAt_write, if_neg (by omega)]

/-- A write at index `k` appends to `buf[0..k-1]`. -/
theorem bufPrefix_write_self (m : Memory) (k : Nat) (b : Byte) :
    bufPrefix (Memory.write m k b) (k + 1) = bufPrefix m k ++ [b] := by
  rw [bufPrefix_succ, bufPrefix_write_of_le m le_rfl, byteAt_write, if_pos rfl]

@[simp] theorem pending_length (s : State) : (pending s).length = s.len.toNat := by simp [pending]

end Sys2Proof.Machine
end

