-- ==== Sys2Proof/Laws/Absorb.lean ====
section
/-!
SUPPORT. What the absorb step does (R69), and what absorbing a byte sequence does: the blocks compressed, the bytes left pending, the
cells written, and the fields it leaves alone.
-/

namespace Sys2Proof.Machine

/-! ## One byte -/

section OneByte
variable (b : Byte) (s : State)

@[simp] theorem absorb_buf : (absorb b s).buf = Memory.write s.buf s.len.toNat b := by
  unfold absorb; dsimp only; split <;> rfl
@[simp] theorem absorb_cnt : (absorb b s).cnt = s.cnt := by unfold absorb; dsimp only; split <;> rfl
@[simp] theorem absorb_phase : (absorb b s).phase = s.phase := by unfold absorb; dsimp only; split <;> rfl
@[simp] theorem absorb_err : (absorb b s).err = s.err := by unfold absorb; dsimp only; split <;> rfl
@[simp] theorem absorb_errCode : (absorb b s).errCode = s.errCode := by unfold absorb; dsimp only; split <;> rfl
@[simp] theorem absorb_rsp : (absorb b s).rsp = s.rsp := by unfold absorb; dsimp only; split <;> rfl
@[simp] theorem absorb_inputs : (absorb b s).inputs = s.inputs := by unfold absorb; dsimp only; split <;> rfl
@[simp] theorem absorb_delivered : (absorb b s).delivered = s.delivered := by unfold absorb; dsimp only; split <;> rfl

/-- `len` after a byte: one more, from 63 back to 0 (R69). -/
theorem absorb_len : (absorb b s).len.toNat = (s.len.toNat + 1) % 64 := by
  unfold absorb
  dsimp only
  split
  · rename_i h
    rw [h]
    rfl
  · simp [BitVec.toNat_add]

/-- A byte that does not fill the PendingBuffer joins the pending bytes and leaves `H` alone. -/
theorem absorb_of_room {s : State} (h : s.len.toNat + 1 < 64) (b : Byte) :
    (absorb b s).H = s.H ∧ pending (absorb b s) = pending s ++ [b] := by
  have hl : (absorb b s).len.toNat = s.len.toNat + 1 := by rw [absorb_len, Nat.mod_eq_of_lt h]
  refine ⟨?_, ?_⟩
  · unfold absorb
    dsimp only
    rw [if_neg (by omega)]
  · rw [pending, hl, absorb_buf, bufPrefix_write_self, pending]

/-- The byte that fills the PendingBuffer has the whole block compressed into `H` and leaves nothing pending. -/
theorem absorb_of_full {s : State} (h : s.len.toNat + 1 = 64) (b : Byte) :
    (absorb b s).H = compress s.H (pending s ++ [b]) ∧ pending (absorb b s) = [] := by
  have hl : (absorb b s).len.toNat = 0 := by rw [absorb_len, h]
  refine ⟨?_, ?_⟩
  · have hblock : blockOf (Memory.write s.buf s.len.toNat b) = pending s ++ [b] := by
      rw [blockOf, ← h, bufPrefix_write_self, pending]
    unfold absorb
    dsimp only
    rw [if_pos h, hblock]
  · rw [pending, hl, bufPrefix_zero]

/-- The absorb step reads and writes neither the BitCounter nor the phase. -/
theorem absorb_withCnt (c : BitVec 64) : absorb b { s with cnt := c } = { absorb b s with cnt := c } := by
  unfold absorb; dsimp only; split <;> rfl

theorem absorb_withPhase (p : Phase) : absorb b { s with phase := p } = { absorb b s with phase := p } := by
  unfold absorb; dsimp only; split <;> rfl

theorem absorb_withInputs (is : List PortInput) : absorb b { s with inputs := is } = { absorb b s with inputs := is } := by
  unfold absorb; dsimp only; split <;> rfl

end OneByte

/-! ## A sequence of bytes -/

section Sequence

@[simp] theorem absorbAll_nil (s : State) : absorbAll [] s = s := rfl

@[simp] theorem absorbAll_cons (b : Byte) (bs : List Byte) (s : State) :
    absorbAll (b :: bs) s = absorbAll bs (absorb b s) := rfl

theorem absorbAll_append (xs ys : List Byte) (s : State) :
    absorbAll (xs ++ ys) s = absorbAll ys (absorbAll xs s) := by simp [absorbAll]

variable (bs : List Byte) (s : State)

@[simp] theorem absorbAll_cnt : (absorbAll bs s).cnt = s.cnt := by
  induction bs generalizing s with
  | nil => rfl
  | cons b bs ih => rw [absorbAll_cons, ih, absorb_cnt]
@[simp] theorem absorbAll_phase : (absorbAll bs s).phase = s.phase := by
  induction bs generalizing s with
  | nil => rfl
  | cons b bs ih => rw [absorbAll_cons, ih, absorb_phase]
@[simp] theorem absorbAll_err : (absorbAll bs s).err = s.err := by
  induction bs generalizing s with
  | nil => rfl
  | cons b bs ih => rw [absorbAll_cons, ih, absorb_err]
@[simp] theorem absorbAll_errCode : (absorbAll bs s).errCode = s.errCode := by
  induction bs generalizing s with
  | nil => rfl
  | cons b bs ih => rw [absorbAll_cons, ih, absorb_errCode]
@[simp] theorem absorbAll_rsp : (absorbAll bs s).rsp = s.rsp := by
  induction bs generalizing s with
  | nil => rfl
  | cons b bs ih => rw [absorbAll_cons, ih, absorb_rsp]
@[simp] theorem absorbAll_inputs : (absorbAll bs s).inputs = s.inputs := by
  induction bs generalizing s with
  | nil => rfl
  | cons b bs ih => rw [absorbAll_cons, ih, absorb_inputs]
@[simp] theorem absorbAll_delivered : (absorbAll bs s).delivered = s.delivered := by
  induction bs generalizing s with
  | nil => rfl
  | cons b bs ih => rw [absorbAll_cons, ih, absorb_delivered]

/-- Absorbing does not look at the BitCounter. -/
theorem absorbAll_withCnt (c : BitVec 64) :
    absorbAll bs { s with cnt := c } = { absorbAll bs s with cnt := c } := by
  induction bs generalizing s with
  | nil => rfl
  | cons b bs ih => rw [absorbAll_cons, absorb_withCnt, ih, absorbAll_cons]

/-- Absorbing does not look at the phase. -/
theorem absorbAll_withPhase (p : Phase) :
    absorbAll bs { s with phase := p } = { absorbAll bs s with phase := p } := by
  induction bs generalizing s with
  | nil => rfl
  | cons b bs ih => rw [absorbAll_cons, absorb_withPhase, ih, absorbAll_cons]

/-- Absorbing does not look at what the host drives next. -/
theorem absorbAll_withInputs (is : List PortInput) :
    absorbAll bs { s with inputs := is } = { absorbAll bs s with inputs := is } := by
  induction bs generalizing s with
  | nil => rfl
  | cons b bs ih => rw [absorbAll_cons, absorb_withInputs, ih, absorbAll_cons]

/-- Absorbing a sequence: every whole block of the pending bytes and the new ones is compressed, in order, and the rest is pending. -/
theorem absorbAll_blocks :
    (absorbAll bs s).H = compressBlocks s.H (blocks (pending s ++ bs)) ∧
      pending (absorbAll bs s) = tailBytes (pending s ++ bs) := by
  induction bs generalizing s with
  | nil =>
    have h : (pending s ++ []).length < 64 := by simpa using s.len.isLt
    rw [blocks_of_short h, tailBytes_of_short h, List.append_nil]
    exact ⟨rfl, rfl⟩
  | cons b bs ih =>
    rw [absorbAll_cons, (ih _).1, (ih _).2]
    have hlt := s.len.isLt
    by_cases h : s.len.toNat + 1 = 64
    · have hb : (pending s ++ [b]).length = 64 := by simpa using h
      rw [(absorb_of_full h b).1, (absorb_of_full h b).2, List.nil_append, List.append_cons (pending s) b bs,
        blocks_append hb, tailBytes_append hb]
      exact ⟨rfl, rfl⟩
    · rw [(absorb_of_room (by omega) b).1, (absorb_of_room (by omega) b).2, ← List.append_cons]
      exact ⟨rfl, rfl⟩

/-- `len` after absorbing a sequence. -/
theorem absorbAll_len : (absorbAll bs s).len.toNat = (s.len.toNat + bs.length) % 64 := by
  rw [← pending_length, (absorbAll_blocks bs s).2, tailBytes_length, List.length_append, pending_length]

/-- The cells that absorbing a sequence does not write: all but `len`, `len + 1`, … modulo 64, one for each byte. -/
theorem absorbAll_read_other {a : Nat} (h : ∀ i < bs.length, a ≠ (s.len.toNat + i) % 64) :
    (absorbAll bs s).buf.read a = s.buf.read a := by
  induction bs generalizing s with
  | nil => rfl
  | cons b bs ih =>
    have h0 : a ≠ s.len.toNat := by
      have := h 0 (by simp)
      rwa [Nat.add_zero, Nat.mod_eq_of_lt s.len.isLt] at this
    rw [absorbAll_cons, ih, absorb_buf, Memory.read_write, if_neg h0]
    intro i hi
    have := h (i + 1) (by simpa using hi)
    rw [absorb_len, Nat.mod_add_mod]
    rwa [← Nat.add_assoc, Nat.add_right_comm] at this

/-- Absorbing a sequence writes its byte `i` at index `len + i`, as long as no compression comes before it. -/
theorem absorbAll_read_self {i : Nat} (hi : i < bs.length) (hroom : s.len.toNat + bs.length ≤ 64) :
    (absorbAll bs s).buf.read (s.len.toNat + i) = some bs[i] := by
  induction bs generalizing s i with
  | nil => simp at hi
  | cons b bs ih =>
    rw [absorbAll_cons]
    simp only [List.length_cons] at hi hroom
    have hlen : bs = [] ∨ (absorb b s).len.toNat = s.len.toNat + 1 := by
      rcases bs with _ | ⟨c, bs⟩
      · exact .inl rfl
      · right
        simp only [List.length_cons] at hroom
        rw [absorb_len, Nat.mod_eq_of_lt (by omega)]
    cases i with
    | zero =>
      rw [absorbAll_read_other, absorb_buf, Memory.read_write, Nat.add_zero, if_pos rfl]
      · rfl
      · intro j hj
        rcases hlen with rfl | hlen
        · simp at hj
        · rw [hlen]; omega
    | succ i =>
      rcases hlen with rfl | hlen
      · simp at hi
      · have := ih (absorb b s) (i := i) (by omega) (by omega)
        rw [hlen] at this
        rw [← Nat.add_assoc, Nat.add_right_comm, this]
        rfl

/-- Absorbing keeps the PendingBuffer sound: canonical cells, every pending byte written. -/
theorem absorbAll_bufferSound
    (h : s.buf.wf ∧ ∀ a < s.len.toNat, (s.buf.read a).isSome) :
    (absorbAll bs s).buf.wf ∧ ∀ a < (absorbAll bs s).len.toNat, ((absorbAll bs s).buf.read a).isSome := by
  induction bs generalizing s with
  | nil => exact h
  | cons b bs ih =>
    refine ih (absorb b s) ⟨?_, fun a ha => ?_⟩
    · rw [absorb_buf]
      exact Memory.write_wf h.1 s.len.isLt b
    · rw [absorb_buf, Memory.read_write]
      rw [absorb_len] at ha
      split
      · rfl
      · exact h.2 a (by have := s.len.isLt; omega)

end Sequence

/-! ## The padding -/

/-- FIN's loop absorbs the padding and adds 8 to the BitCounter for each of its bytes, modulo 2^64 (R76, R80). -/
theorem absorbPad_eq (bs : List Byte) (s : State) :
    absorbPad bs s = { absorbAll bs s with cnt := s.cnt + BitVec.ofNat 64 (8 * bs.length) } := by
  induction bs generalizing s with
  | nil => simp [absorbPad]
  | cons b bs ih =>
    have h : absorbPad (b :: bs) s = absorbPad bs (absorbPadByte b s) := rfl
    have hc : (absorbPadByte b s).cnt = s.cnt + 8 := by rw [absorbPadByte, absorb_cnt]
    rw [h, ih, hc]
    have ha : absorbPadByte b s = { absorb b s with cnt := s.cnt + 8 } := by rw [absorbPadByte, absorb_withCnt]
    have hn : s.cnt + 8 + BitVec.ofNat 64 (8 * bs.length) = s.cnt + BitVec.ofNat 64 (8 * (b :: bs).length) := by
      rw [List.length_cons, Nat.mul_succ, Nat.add_comm, BitVec.ofNat_add, BitVec.add_assoc]
      rfl
    rw [ha, absorbAll_withCnt, hn, absorbAll_cons]

/-- The padding's length (R78): it fills the block, or the block and one more. -/
theorem pad_length {p : Nat} (h : p < 64) (bits : BitVec 64) :
    (pad p bits).length = if p ≤ 55 then 64 - p else 128 - p := by
  simp only [pad, List.length_append, List.length_replicate, padZeros, be64, be32, List.length_cons, List.length_nil]
  split <;> omega

end Sys2Proof.Machine
end

