-- ==== Sys2Proof/Laws/Decode.lean ====
section
/-!
SUPPORT. The fields of a command word (R32): a word is its three fields, and a word built from fields has them.
-/

namespace Sys2Proof

@[simp] theorem opField_commandWord (op : BitVec 4) (arg : BitVec 3) : opField (commandWord op arg) = op := by
  revert op arg; decide +kernel

@[simp] theorem rsvField_commandWord (op : BitVec 4) (arg : BitVec 3) : rsvField (commandWord op arg) = 0 := by
  revert op arg; decide +kernel

@[simp] theorem argField_commandWord (op : BitVec 4) (arg : BitVec 3) : argField (commandWord op arg) = arg := by
  revert op arg; decide +kernel

/-- A command word with a zero RSV field is made of its opcode and its argument. -/
theorem commandWord_fields {cmd : Word} (h : rsvField cmd = 0) : commandWord (opField cmd) (argField cmd) = cmd := by
  unfold commandWord opField argField
  rw [← h, rsvField]
  apply BitVec.eq_of_getLsbD_eq
  intro i hi
  simp only [BitVec.getLsbD_append, BitVec.getLsbD_extractLsb']
  by_cases h3 : i < 3
  · simp [h3]
  · simp only [h3, decide_false]
    by_cases h28 : i - 3 < 25
    · simp only [h28, decide_true, Bool.true_and, if_true, if_false]
      congr 1
      omega
    · have h32 : i - 3 - 25 < 4 := by omega
      simp only [h28, h32, decide_false, decide_true, Bool.true_and, if_false]
      congr 1
      omega

/-- Where RSV is zero, decoding looks at the opcode and the argument. -/
theorem decode_of_rsv_zero {cmd : Word} (h : rsvField cmd = 0) (data : Word) :
    decode cmd data = decodeFields (opField cmd) (argField cmd) data := if_neg (not_not.mpr h)

/-- Where RSV is not zero, the word is ILLEGAL (R35). -/
theorem decode_of_rsv_ne_zero {cmd : Word} (h : rsvField cmd ≠ 0) (data : Word) :
    decode cmd data = .error .reservedNotZero := if_pos h

/-- Every way a word with opcode `op` and argument `arg` can be a command (R34, R36). -/
theorem decodeFields_cases {op : BitVec 4} {arg : BitVec 3} {data : Word} {i : Instr}
    (h : decodeFields op arg data = .ok i) :
    (op = 1 ∧ arg = 0 ∧ i = .init) ∨ (op = 2 ∧ arg.toNat ≤ 4 ∧ i = .upd arg data) ∨ (op = 3 ∧ arg = 0 ∧ i = .fin) ∨
      (op = 4 ∧ i = .rdd arg) ∨ (op = 5 ∧ arg = 0 ∧ i = .rds) := by
  have hop : ∀ k < 16, op.toNat = k → op = BitVec.ofNat 4 k := fun k _ hk => by rw [← hk, BitVec.ofNat_toNat, BitVec.setWidth_eq]
  unfold decodeFields decodeNoArg at h
  split at h <;> rename_i hk
  · split at h <;> rename_i ha
    · exact .inl ⟨hop 1 (by omega) hk, ha, by simpa using h.symm⟩
    · cases h
  · split at h <;> rename_i ha
    · exact .inr (.inl ⟨hop 2 (by omega) hk, ha, by simpa using h.symm⟩)
    · cases h
  · split at h <;> rename_i ha
    · exact .inr (.inr (.inl ⟨hop 3 (by omega) hk, ha, by simpa using h.symm⟩))
    · cases h
  · exact .inr (.inr (.inr (.inl ⟨hop 4 (by omega) hk, by simpa using h.symm⟩)))
  · split at h <;> rename_i ha
    · exact .inr (.inr (.inr (.inr ⟨hop 5 (by omega) hk, ha, by simpa using h.symm⟩)))
    · cases h
  · cases h

end Sys2Proof
end

