-- ==== Sys2Proof/Laws/PerInstr.lean ====
section
/-!
SUPPORT. The family EncodedFields: for every command, the fields of its encoded command word (R32, R34, R35): RSV is zero and OP is one
of the five assigned opcodes.
-/

namespace Sys2Proof.Laws

/-- The encoded command word has a zero RSV field and an assigned opcode. -/
def EncodedFields.Statement (i : Instr) : Prop :=
  rsvField (encode i).1 = 0 ∧ 1 ≤ (opField (encode i).1).toNat ∧ (opField (encode i).1).toNat ≤ 5

theorem EncodedFields.init : EncodedFields.Statement .init := by
  unfold EncodedFields.Statement; decide

theorem EncodedFields.upd (n : BitVec 3) (data : Word) : EncodedFields.Statement (.upd n data) := by
  simp only [EncodedFields.Statement, encode]
  revert n; decide +kernel

theorem EncodedFields.fin : EncodedFields.Statement .fin := by
  unfold EncodedFields.Statement; decide

theorem EncodedFields.rdd (i : BitVec 3) : EncodedFields.Statement (.rdd i) := by
  simp only [EncodedFields.Statement, encode]
  revert i; decide +kernel

theorem EncodedFields.rds : EncodedFields.Statement .rds := by
  unfold EncodedFields.Statement; decide

end Sys2Proof.Laws
end

