-- ==== Sys2Proof/Laws/State.lean ====
section
/-!
SUPPORT. One lemma per field per update of the state, so that no later proof unfolds a record update. The updates: a usage fault
(`raiseUsageFault`), a response (`respond`), a delivery (`deliver`), a reset (`resetBlock`), a command placed on the port
(`placeCommand`).
-/

namespace Sys2Proof.Machine

section RaiseUsageFault
variable (f : UsageFault) (s : State)

@[simp] theorem raiseUsageFault_H : (raiseUsageFault f s).H = s.H := rfl
@[simp] theorem raiseUsageFault_buf : (raiseUsageFault f s).buf = s.buf := rfl
@[simp] theorem raiseUsageFault_len : (raiseUsageFault f s).len = s.len := rfl
@[simp] theorem raiseUsageFault_cnt : (raiseUsageFault f s).cnt = s.cnt := rfl
@[simp] theorem raiseUsageFault_phase : (raiseUsageFault f s).phase = s.phase := rfl
@[simp] theorem raiseUsageFault_err : (raiseUsageFault f s).err = true := rfl
@[simp] theorem raiseUsageFault_errCode : (raiseUsageFault f s).errCode = errCodeAfter s.err s.errCode f := rfl
@[simp] theorem raiseUsageFault_rsp : (raiseUsageFault f s).rsp = s.rsp := rfl
@[simp] theorem raiseUsageFault_inputs : (raiseUsageFault f s).inputs = s.inputs := rfl
@[simp] theorem raiseUsageFault_delivered : (raiseUsageFault f s).delivered = s.delivered := rfl
@[simp] theorem raiseUsageFault_pending : pending (raiseUsageFault f s) = pending s := rfl

end RaiseUsageFault

section Respond
variable (w : Word) (s : State)

@[simp] theorem respond_H : (respond w s).H = s.H := rfl
@[simp] theorem respond_buf : (respond w s).buf = s.buf := rfl
@[simp] theorem respond_len : (respond w s).len = s.len := rfl
@[simp] theorem respond_cnt : (respond w s).cnt = s.cnt := rfl
@[simp] theorem respond_phase : (respond w s).phase = s.phase := rfl
@[simp] theorem respond_err : (respond w s).err = s.err := rfl
@[simp] theorem respond_errCode : (respond w s).errCode = s.errCode := rfl
@[simp] theorem respond_rsp : (respond w s).rsp = some w := rfl
@[simp] theorem respond_inputs : (respond w s).inputs = s.inputs := rfl
@[simp] theorem respond_delivered : (respond w s).delivered = s.delivered := rfl
@[simp] theorem respond_pending : pending (respond w s) = pending s := rfl

end Respond

section Deliver
variable (w : Word) (ready : Bool) (s : State)

@[simp] theorem deliver_H : (deliver w ready s).H = s.H := by cases ready <;> rfl
@[simp] theorem deliver_buf : (deliver w ready s).buf = s.buf := by cases ready <;> rfl
@[simp] theorem deliver_len : (deliver w ready s).len = s.len := by cases ready <;> rfl
@[simp] theorem deliver_cnt : (deliver w ready s).cnt = s.cnt := by cases ready <;> rfl
@[simp] theorem deliver_phase : (deliver w ready s).phase = s.phase := by cases ready <;> rfl
@[simp] theorem deliver_err : (deliver w ready s).err = s.err := by cases ready <;> rfl
@[simp] theorem deliver_errCode : (deliver w ready s).errCode = s.errCode := by cases ready <;> rfl
@[simp] theorem deliver_rsp : (deliver w ready s).rsp = if ready then none else s.rsp := by cases ready <;> rfl
@[simp] theorem deliver_inputs : (deliver w ready s).inputs = s.inputs := by cases ready <;> rfl
@[simp] theorem deliver_delivered :
    (deliver w ready s).delivered = if ready then s.delivered ++ [w] else s.delivered := by cases ready <;> rfl
@[simp] theorem deliver_pending : pending (deliver w ready s) = pending s := by cases ready <;> rfl

end Deliver

section ResetBlock
variable (s : State)

@[simp] theorem resetBlock_H : (resetBlock s).H = IV := rfl
@[simp] theorem resetBlock_buf : (resetBlock s).buf = [] := rfl
@[simp] theorem resetBlock_len : (resetBlock s).len = 0 := rfl
@[simp] theorem resetBlock_cnt : (resetBlock s).cnt = 0 := rfl
@[simp] theorem resetBlock_phase : (resetBlock s).phase = .empty := rfl
@[simp] theorem resetBlock_err : (resetBlock s).err = false := rfl
@[simp] theorem resetBlock_errCode : (resetBlock s).errCode = 0 := rfl
@[simp] theorem resetBlock_rsp : (resetBlock s).rsp = none := rfl
@[simp] theorem resetBlock_inputs : (resetBlock s).inputs = s.inputs := rfl
@[simp] theorem resetBlock_delivered : (resetBlock s).delivered = s.delivered := rfl

end ResetBlock

section PlaceCommand
variable (c : CommandPair) (s : State)

@[simp] theorem placeCommand_H : (placeCommand c s).H = s.H := rfl
@[simp] theorem placeCommand_buf : (placeCommand c s).buf = s.buf := rfl
@[simp] theorem placeCommand_len : (placeCommand c s).len = s.len := rfl
@[simp] theorem placeCommand_cnt : (placeCommand c s).cnt = s.cnt := rfl
@[simp] theorem placeCommand_phase : (placeCommand c s).phase = s.phase := rfl
@[simp] theorem placeCommand_err : (placeCommand c s).err = s.err := rfl
@[simp] theorem placeCommand_errCode : (placeCommand c s).errCode = s.errCode := rfl
@[simp] theorem placeCommand_rsp : (placeCommand c s).rsp = none := rfl
@[simp] theorem placeCommand_inputs : (placeCommand c s).inputs = offerOnly c :: s.inputs := rfl
@[simp] theorem placeCommand_delivered : (placeCommand c s).delivered = s.delivered := rfl

end PlaceCommand

/-- A usage fault's code is one of 1..5 (R91). -/
theorem UsageFault.code_range (f : UsageFault) : 1 ≤ f.code.toNat ∧ f.code.toNat ≤ 5 := by
  cases f <;> decide

/-- The first usage fault since reset records its own code (R90). -/
@[simp] theorem errCodeAfter_first (c : BitVec 4) (f : UsageFault) : errCodeAfter false c f = f.code := rfl

/-- A later usage fault keeps the recorded code (R90, R94). -/
@[simp] theorem errCodeAfter_later (c : BitVec 4) (f : UsageFault) : errCodeAfter true c f = c := rfl

end Sys2Proof.Machine
end

