-- ==== Sys2Proof/Laws/Step.lean ====
section
/-!
SUPPORT. What the meanings and the step can do, said once: the outcomes of UPD, FIN and RDD, and the cases of a step.
-/

namespace Sys2Proof.Machine

/-- Every outcome of UPD (R68, R92), in the order of its checks. -/
theorem execUpd_cases (n : BitVec 3) (data : Word) (s : State) :
    (4 < n.toNat ∧ execUpd n data s = .next (raiseUsageFault .illegal s)) ∨
    (n.toNat ≤ 4 ∧ s.phase = .finalized ∧ execUpd n data s = .next (raiseUsageFault .updAfterFinal s)) ∨
    (n.toNat ≤ 4 ∧ s.phase ≠ .finalized ∧ 2 ^ 64 ≤ s.cnt.toNat + 8 * n.toNat ∧
      execUpd n data s = .next (raiseUsageFault .cntOverflow s)) ∨
    (n.toNat ≤ 4 ∧ s.phase ≠ .finalized ∧ s.cnt.toNat + 8 * n.toNat < 2 ^ 64 ∧
      execUpd n data s = .next { absorbAll (lanes n data) s with
        cnt := s.cnt + BitVec.ofNat 64 (8 * n.toNat), phase := .accumulating }) := by
  unfold execUpd
  by_cases hn : 4 < n.toNat
  · exact .inl ⟨hn, if_pos hn⟩
  · rw [if_neg hn]
    by_cases hp : s.phase = .finalized
    · exact .inr (.inl ⟨by omega, hp, if_pos hp⟩)
    · rw [if_neg hp]
      by_cases hc : 2 ^ 64 - 1 < s.cnt.toNat + 8 * n.toNat
      · exact .inr (.inr (.inl ⟨by omega, hp, by omega, if_pos hc⟩))
      · refine .inr (.inr (.inr ⟨by omega, hp, by omega, ?_⟩))
        rw [if_neg hc, absorbAll_withCnt]

/-- Every outcome of FIN (R76), with the padding loop as an absorption of `pad` and a sum on the BitCounter. -/
theorem execFin_cases (s : State) :
    (s.phase = .finalized ∧ execFin s = .next (raiseUsageFault .finAfterFinal s)) ∨
    (s.phase ≠ .finalized ∧
      execFin s = .next { absorbAll (pad s.len.toNat s.cnt) s with
        cnt := s.cnt + BitVec.ofNat 64 (8 * (pad s.len.toNat s.cnt).length), phase := .finalized }) := by
  unfold execFin
  by_cases hp : s.phase = .finalized
  · exact .inl ⟨hp, if_pos hp⟩
  · refine .inr ⟨hp, ?_⟩
    rw [if_neg hp, absorbPad_eq]

/-- Every outcome of RDD (R85). -/
theorem execRdd_cases (i : BitVec 3) (s : State) :
    (s.phase = .finalized ∧ execRdd i s = .next (respond (digestWord s.H i) s)) ∨
    (s.phase ≠ .finalized ∧ execRdd i s = .next (raiseUsageFault .rddNotFinal (respond 0 s))) := by
  unfold execRdd
  by_cases hp : s.phase = .finalized
  · exact .inl ⟨hp, if_pos hp⟩
  · exact .inr ⟨hp, if_neg hp⟩

/-- Everything a step can do: nothing is driven; or the next sample resets the block, moves the response port, leaves the block idle,
has an ILLEGAL word accepted, or has a command accepted and carried out. -/
theorem step_cases {s t : State} (h : step s = .next t) :
    (s.inputs = [] ∧ t = s) ∨
    ∃ i rest, s.inputs = i :: rest ∧
      ((i.rstN = false ∧ t = resetBlock { s with inputs := rest }) ∨
       (i.rstN = true ∧ ∃ w, s.rsp = some w ∧ t = deliver w i.rspReady { s with inputs := rest }) ∨
       (i.rstN = true ∧ s.rsp = none ∧ i.cmd = none ∧ t = { s with inputs := rest }) ∨
       (i.rstN = true ∧ s.rsp = none ∧ ∃ c e, i.cmd = some c ∧ Sys2Proof.decode c.word c.data = .error e ∧
          t = raiseUsageFault .illegal { s with inputs := rest }) ∨
       (i.rstN = true ∧ s.rsp = none ∧ ∃ c j, i.cmd = some c ∧ Sys2Proof.decode c.word c.data = .ok j ∧
          exec j { s with inputs := rest } = .next t)) := by
  unfold step at h
  split at h
  · rename_i hin
    exact .inl ⟨hin, by simpa using h.symm⟩
  · rename_i i rest hin
    refine .inr ⟨i, rest, hin, ?_⟩
    unfold reactTo portAction at h
    cases hr : i.rstN with
    | false => exact .inl ⟨rfl, by simpa [hr] using h.symm⟩
    | true =>
      right
      cases hp : s.rsp with
      | some w => exact .inl ⟨rfl, w, rfl, by simpa [hr, hp] using h.symm⟩
      | none =>
        right
        cases hc : i.cmd with
        | none => exact .inl ⟨rfl, rfl, rfl, by simpa [hr, hp, hc] using h.symm⟩
        | some c =>
          right
          simp only [hr, hp, hc, acceptCommand] at h
          cases hd : Sys2Proof.decode c.word c.data with
          | error e => exact .inl ⟨rfl, rfl, c, e, rfl, hd, by simpa [hd] using h.symm⟩
          | ok j => exact .inr ⟨rfl, rfl, c, j, rfl, hd, by simpa [hd] using h⟩

end Sys2Proof.Machine
end

