-- ==== Sys2Proof/Laws/Run.lean ====
section
/-!
SUPPORT. Runs of the machine behind the host's interface, one step at a time.
-/

namespace Sys2Proof.Machine

/-- A run of any machine goes on from the next state of its first step. -/
theorem run_succ_of_next (M : Host.Core) {s t : M.State} (h : M.step s = .next t) (k : Nat) :
    M.run (k + 1) s = M.run k t := by
  rw [Host.Core.run, h]

/-- A run of no step stays where it is. -/
theorem core_run_zero (s : State) : Host.Core.run Sys2Proof.core 0 s = .next s := rfl

/-- A run of the block goes on from the next state of its first step. -/
theorem core_run_succ {s t : State} (h : step s = .next t) (k : Nat) :
    Host.Core.run Sys2Proof.core (k + 1) s = Host.Core.run Sys2Proof.core k t :=
  run_succ_of_next Sys2Proof.core h k

end Sys2Proof.Machine
end

