-- ==== Sys2Proof/Tests/Slice0.lean ====
section
/-!
SUPPORT. The model's own tests: the smoke test of WellFormed, decoding of words written out from the encoding of R32 and R34, one step of
each command against the rows of 95_test_vectors.md, the internal functions against its sections 2, 3 and 5, and a witness for the
hypotheses of every statement that has some.
-/

namespace Sys2Proof.Tests

-- One theorem at a time: each kernel evaluation here would otherwise hold a thread, and its stack, of its own.
set_option Elab.async false

open Sys2Proof Sys2Proof.Machine

/-! ## Helpers -/

/-- A context in the given phase with the given pending bytes and bit count. -/
def context (phase : Phase) (bytes : List Byte) (cnt : BitVec 64) : State :=
  { State.reset with phase := phase, buf := (List.range bytes.length).zip bytes, len := BitVec.ofNat 6 bytes.length, cnt := cnt }

/-- What an outcome's next state is, if it is one. -/
def nextState : Host.Outcome State Fault Refusal → Option State
  | .next s => some s
  | .fault _ => none
  | .refused _ => none

/-- STATUS after an outcome. -/
def statusAfter (o : Host.Outcome State Fault Refusal) : Option Word := (nextState o).map statusWord

/-- The response pending after an outcome. -/
def responseAfter (o : Host.Outcome State Fault Refusal) : Option Word := (nextState o).bind State.rsp

/-- The digest state after an outcome. -/
def hashAfter (o : Host.Outcome State Fault Refusal) : Option (Vector Word 8) := (nextState o).map State.H

/-- The pending bytes after an outcome. -/
def pendingAfter (o : Host.Outcome State Fault Refusal) : Option (List Byte) := (nextState o).map pending

/-- The step that accepts a command word with its data word. -/
def accepting (w d : Word) (s : State) : Host.Outcome State Fault Refusal := step (placeCommand { word := w, data := d } s)

/-- The words of the digest of "abc" (95_test_vectors.md 1.2). -/
def abcWords : Vector Word 8 :=
  #v[0xba7816bf, 0x8f01cfea, 0x414140de, 0x5dae2223, 0xb00361a3, 0x96177a9c, 0xb410ff61, 0xf20015ad]

/-- The state P1 reaches at its end (95_test_vectors.md section 9). -/
def afterAbc : State := { context .finalized [] 512 with H := abcWords }

/-- A sample that offers a command and would take a response. -/
def offering (w d : Word) : PortInput := { rstN := true, cmd := some { word := w, data := d }, rspReady := true }

/-- A sample that asserts reset, whatever else it does. -/
def resetting : PortInput := { rstN := false, cmd := some { word := 0x10000000, data := 0 }, rspReady := true }

/-- A sample in which the host does nothing. -/
def quiet : PortInput := { rstN := true, cmd := none, rspReady := false }

/-- The legality of a list of UPDs, from a test of each. -/
theorem updLegal_of_all {us : List (BitVec 3 × Word)} (h : us.all (fun u => decide (u.1.toNat ≤ 4)) = true) : UpdLegal us :=
  fun u hu => of_decide_eq_true (List.all_eq_true.mp h u hu)

/-! ## WellFormed (R36) -/

theorem test_wellFormed_refuses_upd_of_five_bytes : (Instr.upd 5 0x61626300).wellFormed = false := by decide

theorem test_wellFormed_refuses_upd_of_seven_bytes : (Instr.upd 7 0).wellFormed = false := by decide

theorem test_wellFormed_accepts_the_commands :
    Instr.init.wellFormed = true ∧ (Instr.upd 0 0).wellFormed = true ∧ (Instr.upd 4 0xffffffff).wellFormed = true ∧
      Instr.fin.wellFormed = true ∧ (Instr.rdd 7).wellFormed = true ∧ Instr.rds.wellFormed = true := by decide

/-! ## Decode: words bit by bit from R32 and R34 (OP in 31:28, RSV in 27:3, ARG in 2:0) -/

theorem test_decode_init : decode 0b0001_0000000000000000000000000_000 0xdeadbeef = .ok .init := by decide

theorem test_decode_upd :
    decode 0b0010_0000000000000000000000000_011 0x61626300 = .ok (.upd 0b011 0x61626300) ∧
      decode 0b0010_0000000000000000000000000_100 0x00010203 = .ok (.upd 0b100 0x00010203) := by decide

theorem test_decode_fin : decode 0b0011_0000000000000000000000000_000 0 = .ok .fin := by decide

theorem test_decode_rdd :
    decode 0b0100_0000000000000000000000000_101 0 = .ok (.rdd 0b101) ∧
      decode 0b0100_0000000000000000000000000_110 0 = .ok (.rdd 0b110) := by decide

theorem test_decode_rds : decode 0b0101_0000000000000000000000000_000 0 = .ok .rds := by decide

/-- 95_test_vectors.md section 10: words whose OP is not assigned. -/
theorem test_decode_refuses_unassigned_opcodes :
    decode 0x00000001 0 = .error .unassignedOpcode ∧ decode 0x60000000 0 = .error .unassignedOpcode ∧
      decode 0x80000000 0 = .error .unassignedOpcode ∧ decode 0xf0000000 0 = .error .unassignedOpcode := by decide

/-- 95_test_vectors.md section 10: words whose RSV is not zero, the lowest and the highest bit of it among them. -/
theorem test_decode_refuses_reserved_bits :
    decode 0x18000000 0 = .error .reservedNotZero ∧ decode 0x20000008 0 = .error .reservedNotZero ∧
      decode 0x2ffffffc 0 = .error .reservedNotZero ∧ decode 0x4000000f 0 = .error .reservedNotZero ∧
      decode 0x12345678 0 = .error .reservedNotZero ∧ decode 0xffffffff 0 = .error .reservedNotZero := by decide

/-- 95_test_vectors.md section 10: words whose ARG is out of range. -/
theorem test_decode_refuses_arguments :
    decode 0x10000001 0 = .error .argNotZero ∧ decode 0x30000004 0 = .error .argNotZero ∧
      decode 0x50000007 0 = .error .argNotZero ∧ decode 0x20000007 0 = .error .countTooLarge := by decide

/-- The table's numbering: the command word in bits 31..0, the data word above it. -/
theorem test_decodeTableWord_reads_both_words :
    decodeTableWord 32 0x40000002 = some (.rdd 2) ∧ decodeTableWord 64 0x6162630020000003 = some (.upd 3 0x61626300) ∧
      decodeTableWord 32 0x20000003 = some (.upd 3 0) ∧ decodeTableWord 32 0x20000005 = none := by decide

theorem test_withFetchWord_runs_the_word :
    responseAfter (step (State.reset.withFetchWord 32 0x50000000)) = some 0 ∧
      statusAfter (step (State.reset.withFetchWord 32 0x20000002)) = some 0x00000201 := by decide +kernel

/-! ## One step of each command (95_test_vectors.md sections 8 and 9) -/

/-- P4 row 11: INIT leaves ERR and ERRCODE. -/
theorem test_init_keeps_error :
    statusAfter (accepting 0x10000000 0 { afterAbc with err := true, errCode := 1 }) = some 0x00000018 := by decide

theorem test_init_loads_iv : hashAfter (accepting 0x10000000 0 afterAbc) = some IV := by decide

/-- P1 row 2: lane 0 is the most significant byte. -/
theorem test_upd_stores_lanes_in_order :
    pendingAfter (accepting 0x20000003 0x61626300 State.reset) = some [0x61, 0x62, 0x63] ∧
      statusAfter (accepting 0x20000003 0x61626300 State.reset) = some 0x00000301 := by decide +kernel

/-- Section 2.2, the all-0xff block, completed by the first of two bytes. -/
theorem test_upd_completes_block :
    hashAfter (accepting 0x20000002 0xffaa0000 (context .accumulating (List.replicate 63 0xff) 504)) =
        some #v[0xef0c748d, 0xf4da50a8, 0xd6c43c01, 0x3edc3ce7, 0x6c9d9fa9, 0xa1458ade, 0x56eb86c0, 0xa64492d2] ∧
      statusAfter (accepting 0x20000002 0xffaa0000 (context .accumulating (List.replicate 63 0xff) 504)) =
        some 0x00000101 := by decide +kernel

/-- P2 row 1: FIN straight from reset gives the digest of the empty message. -/
theorem test_fin_of_empty_message :
    hashAfter (accepting 0x30000000 0 State.reset) =
      some #v[0xe3b0c442, 0x98fc1c14, 0x9afbf4c8, 0x996fb924, 0x27ae41e4, 0x649b934c, 0xa495991b, 0x7852b855] := by
  decide +kernel

/-- P5 row 4: the length suffix is the BitCounter as FIN finds it. -/
theorem test_fin_of_largest_count :
    hashAfter (accepting 0x30000000 0 (context .accumulating [] 0xfffffffffffffff8)) =
      some #v[0xf17c3da6, 0x95c8a5ed, 0xfc749881, 0xd8289ebd, 0x6fa2271e, 0xddeca4df, 0x72234b5d, 0x549501de] := by
  decide +kernel

/-- P1 rows 5 and 12. -/
theorem test_rdd_reads_digest :
    responseAfter (accepting 0x40000000 0 afterAbc) = some 0xba7816bf ∧
      responseAfter (accepting 0x40000007 0 afterAbc) = some 0xf20015ad := by decide

/-- Section 8: RDD before FIN. -/
theorem test_rdd_not_final :
    responseAfter (accepting 0x40000003 0 State.reset) = some 0 ∧
      statusAfter (accepting 0x40000003 0 State.reset) = some 0x00000048 := by decide

/-- P4 row 7. -/
theorem test_rds_reads_status :
    responseAfter (accepting 0x50000000 0
      { context .accumulating [0x61, 0x62, 0x63] 24 with err := true, errCode := 1 }) = some 0x00000319 := by decide

/-! ## Usage faults (95_test_vectors.md sections 8 and 9) -/

/-- P5 row 1 and P2 row 5: CNT_OVERFLOW, and UPD after FIN with the first code kept. -/
theorem test_upd_faults :
    statusAfter (accepting 0x20000001 0x61000000 (context .accumulating [] 0xfffffffffffffff8)) = some 0x00000059 ∧
      statusAfter (accepting 0x20000001 0x61000000 { afterAbc with err := true, errCode := 3 }) = some 0x0000003a := by decide

/-- Section 8: an illegal word from reset, and an illegal UPD in phase Finalized, where ILLEGAL comes before the phase check. -/
theorem test_illegal_words :
    statusAfter (accepting 0 0 State.reset) = some 0x00000018 ∧ responseAfter (accepting 0 0 State.reset) = none ∧
      statusAfter (accepting 0x20000005 0 afterAbc) = some 0x0000001a := by decide

/-! ## The compression core and the padding (95_test_vectors.md sections 2, 3 and 5) -/

theorem test_choose_and_majority :
    ch 0x510e527f 0x9b05688c 0x1f83d9ab = 0x1f85c98c ∧ ch 0x00000000 0x12345678 0x9abcdef0 = 0x9abcdef0 ∧
      maj 0x6a09e667 0xbb67ae85 0x3c6ef372 = 0x3a6fe667 := by decide

theorem test_sigmas :
    bigSigma0 0x6a09e667 = 0xce20b47e ∧ bigSigma1 0x510e527f = 0x3587272b ∧ smallSigma0 1 = 0x02004000 ∧
      smallSigma0 0x80000000 = 0x11002000 ∧ smallSigma1 1 = 0x0000a000 ∧ smallSigma1 0x80000000 = 0x00205000 := by decide

/-- Section 3, the last row of the schedule of the padded "abc" block. -/
theorem test_schedule_of_abc :
    (schedule ([0x61, 0x62, 0x63] ++ pad 3 24)).drop 56 =
      [0xef57b9cd, 0xebe6b238, 0x9fe3095e, 0x78bc8d4b, 0xa43fcf15, 0x668b2ff8, 0xeeaba2cc, 0x12b1edeb] := by decide +kernel

theorem test_compress_of_abc : compress IV ([0x61, 0x62, 0x63] ++ pad 3 24) = abcWords := by decide +kernel

/-- Section 5: the row of 55 pending bytes, and the lengths of the rows of 56 and 63. -/
theorem test_padding :
    pad 55 440 = [0x80, 0x00, 0x00, 0x00, 0x00, 0x00, 0x00, 0x01, 0xb8] ∧ (pad 56 448).length = 72 ∧
      (pad 63 504).length = 65 := by decide

/-- R11: the big-endian encodings. -/
theorem test_big_endian :
    be32 0x01020304 = [1, 2, 3, 4] ∧ be64 0x0102030405060708 = [1, 2, 3, 4, 5, 6, 7, 8] ∧ wordBe [1, 2, 3, 4] 0 = 0x01020304 := by
  decide

/-! ## Witnesses: hypotheses of the statements, met together -/

theorem test_witness_ResetLeavesConstructedContext : resetting.rstN = false ∧ quiet.rstN = true := by decide

theorem test_witness_StepRunsDecodedCommand :
    let s := { State.reset with inputs := [offering 0x20000003 0x61626300, quiet] }
    s.inputs = offering 0x20000003 0x61626300 :: [quiet] ∧ (offering 0x20000003 0x61626300).rstN = true ∧ s.rsp = none ∧
      (offering 0x20000003 0x61626300).cmd = some { word := 0x20000003, data := 0x61626300 } ∧
      decode 0x20000003 0x61626300 = .ok (.upd 3 0x61626300) := by decide

/-- The words next to the legal ones: 0x20000005, 0x1fffffff and 0x50000001. -/
theorem test_witness_IllegalWordOnlyRecordsFault :
    (0x20000005 : Word) ∉ ([0x10000000, 0x20000000, 0x20000001, 0x20000002, 0x20000003, 0x20000004, 0x30000000, 0x40000000,
      0x40000001, 0x40000002, 0x40000003, 0x40000004, 0x40000005, 0x40000006, 0x40000007, 0x50000000] : List Word) ∧
    (0x1fffffff : Word) ∉ ([0x10000000, 0x20000000, 0x20000001, 0x20000002, 0x20000003, 0x20000004, 0x30000000, 0x40000000,
      0x40000001, 0x40000002, 0x40000003, 0x40000004, 0x40000005, 0x40000006, 0x40000007, 0x50000000] : List Word) ∧
    (0x50000001 : Word) ∉ ([0x10000000, 0x20000000, 0x20000001, 0x20000002, 0x20000003, 0x20000004, 0x30000000, 0x40000000,
      0x40000001, 0x40000002, 0x40000003, 0x40000004, 0x40000005, 0x40000006, 0x40000007, 0x50000000] : List Word) := by
  decide

theorem test_witness_ResetOverridesCommands :
    let s := { afterAbc with rsp := some 7, inputs := [resetting, quiet] }
    s.inputs = resetting :: [quiet] ∧ resetting.rstN = false := by decide

/-- Both read commands; a host that offers a command while a response is undelivered, taking the response or not. -/
theorem test_witness_UndeliveredResponseBlocksCommands :
    (isRead .rds = true ∧ isRead (.rdd 7) = true) ∧
    (let s := { afterAbc with rsp := some 7, inputs := [offering 0x30000000 0] }
     s.inputs = offering 0x30000000 0 :: [] ∧ (offering 0x30000000 0).rstN = true ∧ s.rsp = some 7 ∧
       (offering 0x30000000 0).rspReady = true) ∧
    (let s := { afterAbc with rsp := some 7, inputs := [quiet] }
     s.inputs = quiet :: [] ∧ quiet.rstN = true ∧ s.rsp = some 7 ∧ quiet.rspReady = false) := by decide

theorem test_witness_CommandTransferNeedsValidAndReady :
    ((offering 0x30000000 0).cmd = some { word := 0x30000000, data := 0 } ∧ cmdReady (offering 0x30000000 0) State.reset = true) ∧
    cmdReady (offering 0x30000000 0) { State.reset with rsp := some 0 } = false ∧
    (let s := { State.reset with inputs := [quiet] }
     s.inputs = quiet :: [] ∧ quiet.rstN = true ∧ s.rsp = none ∧ quiet.cmd = none) ∧
    State.reset.inputs = [] := by decide

/-- SixteenLegalWords: a word on each side. -/
theorem test_witness_SixteenLegalWords :
    (∃ i, decode 0x40000007 0 = .ok i) ∧ ¬ ∃ i, decode 0x40000008 0 = .ok i :=
  ⟨⟨.rdd 7, by decide⟩, fun ⟨i, h⟩ => by
    have h' : decode 0x40000008 0 = .error .reservedNotZero := by decide
    rw [h'] at h
    cases h⟩

theorem test_witness_DecodeOfEncode :
    (Instr.upd 4 0xffffffff).wellFormed = true ∧ (Instr.upd 0 1).wellFormed = true ∧ (Instr.rdd 7).wellFormed = true := by decide

theorem test_witness_EncodeOfDecode :
    decode 0x20000004 0x00010203 = .ok (.upd 4 0x00010203) ∧ decode 0x50000000 0xffffffff = .ok .rds := by decide

theorem test_witness_LegalityIgnoresData : decode 0x20000005 0x61626300 = .error .countTooLarge := by decide

/-- A command that ignores the whole data word, and an UPD of two bytes whose last two lanes differ. -/
theorem test_witness_IgnoredDataHasNoEffect :
    (opField 0x30000000 ≠ 2) ∧ opField 0x20000002 = 2 ∧
    ∀ k : Nat, k < 4 → k < (argField 0x20000002).toNat →
      (0x61620000 : Word).extractLsb' (24 - 8 * k) 8 = (0x6162ffff : Word).extractLsb' (24 - 8 * k) 8 := by
  refine ⟨by decide, by decide, fun k hk _ => ?_⟩
  have h : k = 0 ∨ k = 1 ∨ k = 2 ∨ k = 3 := by omega
  rcases h with rfl | rfl | rfl | rfl
  · decide
  · decide
  · rename_i h2; exact absurd h2 (by decide)
  · rename_i h2; exact absurd h2 (by decide)

/-- A command with lanes to keep and lanes to write 0, on both sides of the count; and a command that is no UPD. -/
theorem test_witness_AssembledCommandActsAsItself :
    (Instr.upd 1 0x61626364).wellFormed = true ∧ (1 : BitVec 3).toNat ≤ 4 ∧ (0 < 4 ∧ 0 < (1 : BitVec 3).toNat) ∧
      (1 < 4 ∧ ¬ 1 < (1 : BitVec 3).toNat) ∧ ∀ n data, Instr.rds ≠ .upd n data :=
  ⟨by decide, by decide, by decide, by decide, fun _ _ h => by cases h⟩

/-- R40's data column: the lanes beyond `n` are written 0. -/
theorem test_assemble_clears_ignored_lanes :
    assemble (.upd 3 0x61626364) = { word := 0x20000003, data := 0x61626300 } ∧
      assemble (.upd 0 0xffffffff) = { word := 0x20000000, data := 0 } ∧
      assemble (.upd 4 0x61626364) = { word := 0x20000004, data := 0x61626364 } := by decide

theorem test_witness_BigEndianWords :
    1 + 3 < ([0, 1, 2, 3, 4] : List Byte).length ∧ (0 < 4 ∧ 3 < 4) ∧ (0 < 8 ∧ 7 < 8) := by decide

theorem test_witness_SigmaBits : (0 < 32 ∧ 31 < 32) := by decide

theorem test_witness_RoundConstantsFromCubeRoots : 0 < 64 ∧ 63 < 64 := by decide

theorem test_witness_ScheduleFollowsRecurrence : 0 < 16 ∧ 15 < 16 ∧ (16 ≤ 16 ∧ 16 < 64) ∧ (16 ≤ 63 ∧ 63 < 64) := by decide

/-- The schedule of a block as a sequence. -/
def wordsOf (block : List Byte) (t : Nat) : Word := (schedule block).getD t 0

/-- The working variables after `t` rounds on the padded "abc" block. -/
def workingOf (block : List Byte) : Nat → Working
  | 0 => workingInit IV
  | t + 1 => compressRound (workingOf block t) (K.getD t 0) (wordsOf block t)

/-- The padded "abc" block. -/
def abcBlock : List Byte := [0x61, 0x62, 0x63] ++ pad 3 24

theorem test_witness_CompressionFollowsRounds :
    abcBlock.length = 64 ∧
    (∀ t < 16, wordsOf abcBlock t = wordBe abcBlock (4 * t)) ∧
    (∀ t < 64, 16 ≤ t → wordsOf abcBlock t = smallSigma1 (wordsOf abcBlock (t - 2)) + wordsOf abcBlock (t - 7) +
      smallSigma0 (wordsOf abcBlock (t - 15)) + wordsOf abcBlock (t - 16)) ∧
    workingOf abcBlock 0 =
      { a := IV[0], b := IV[1], c := IV[2], d := IV[3], e := IV[4], f := IV[5], g := IV[6], h := IV[7] } ∧
    (∀ t < 64,
      let v := workingOf abcBlock
      let T1 := (v t).h + bigSigma1 (v t).e + ch (v t).e (v t).f (v t).g + K.getD t 0 + wordsOf abcBlock t
      let T2 := bigSigma0 (v t).a + maj (v t).a (v t).b (v t).c
      v (t + 1) = { a := T1 + T2, b := (v t).a, c := (v t).b, d := (v t).c,
                    e := (v t).d + T1, f := (v t).e, g := (v t).f, h := (v t).g }) :=
  ⟨by decide, by decide +kernel, by decide +kernel, rfl, fun _ _ => rfl⟩

theorem test_witness_InitIsResetOfContext : ∃ t, exec .init { afterAbc with err := true, errCode := 3 } = .next t := ⟨_, rfl⟩

/-- No byte into the last free place, four bytes up to the last free place, and the largest count. -/
theorem test_witness_UpdStoresIntoRoom :
    (let s := context .accumulating (List.replicate 63 0) 504
     (0 : BitVec 3).toNat ≤ 4 ∧ s.phase ≠ .finalized ∧ s.cnt.toNat + 8 * (0 : BitVec 3).toNat ≤ 2 ^ 64 - 1 ∧
       s.len.toNat + (0 : BitVec 3).toNat < 64) ∧
    (let s := context .accumulating (List.replicate 59 0) 472
     (4 : BitVec 3).toNat ≤ 4 ∧ s.phase ≠ .finalized ∧ s.cnt.toNat + 8 * (4 : BitVec 3).toNat ≤ 2 ^ 64 - 1 ∧
       s.len.toNat + (4 : BitVec 3).toNat < 64) ∧
    (let s := context .accumulating [] 0xfffffffffffffff7
     (1 : BitVec 3).toNat ≤ 4 ∧ s.phase ≠ .finalized ∧ s.cnt.toNat + 8 * (1 : BitVec 3).toNat ≤ 2 ^ 64 - 1 ∧
       s.len.toNat + (1 : BitVec 3).toNat < 64) := by decide +kernel

/-- Exactly to the end of the block, and three bytes past it. -/
theorem test_witness_UpdFillsBlock :
    (let s := context .accumulating (List.replicate 60 0) 480
     (4 : BitVec 3).toNat ≤ 4 ∧ s.phase ≠ .finalized ∧ s.cnt.toNat + 8 * (4 : BitVec 3).toNat ≤ 2 ^ 64 - 1 ∧
       64 ≤ s.len.toNat + (4 : BitVec 3).toNat) ∧
    (let s := context .accumulating (List.replicate 63 0) 504
     (4 : BitVec 3).toNat ≤ 4 ∧ s.phase ≠ .finalized ∧ s.cnt.toNat + 8 * (4 : BitVec 3).toNat ≤ 2 ^ 64 - 1 ∧
       64 ≤ s.len.toNat + (4 : BitVec 3).toNat) := by decide +kernel

theorem test_witness_UpdZeroOnlyMovesPhase :
    State.reset.phase ≠ .finalized ∧ (context .accumulating [] 512).phase ≠ .finalized := by decide

theorem test_witness_UpdAfterFinalFaults :
    (0 : BitVec 3).toNat ≤ 4 ∧ (4 : BitVec 3).toNat ≤ 4 ∧ afterAbc.phase = .finalized := by decide

theorem test_witness_UpdOverflowFaults :
    let s := context .accumulating [] 0xfffffffffffffff8
    (1 : BitVec 3).toNat ≤ 4 ∧ s.phase ≠ .finalized ∧ 2 ^ 64 - 1 < s.cnt.toNat + 8 * (1 : BitVec 3).toNat := by decide

/-- "abc" in one UPD and in two; and UPDs with no byte. -/
theorem test_witness_ChunkingInvariance :
    (let us : List (BitVec 3 × Word) := [(3, 0x61626300)]
     let vs : List (BitVec 3 × Word) := [(1, 0x61000000), (0, 0), (2, 0x6263ffff)]
     UpdLegal us ∧ UpdLegal vs ∧ us ≠ [] ∧ vs ≠ [] ∧ updMessage us = updMessage vs ∧ State.reset.phase ≠ .finalized ∧
       State.reset.cnt.toNat + 8 * (updMessage us).length ≤ 2 ^ 64 - 1) ∧
    (let us : List (BitVec 3 × Word) := [(0, 0), (0, 0xffffffff)]
     UpdLegal us ∧ us ≠ [] ∧ updMessage us = [] ∧ State.reset.phase ≠ .finalized) :=
  ⟨⟨updLegal_of_all rfl, updLegal_of_all rfl, by decide, by decide, by decide, by decide, by decide⟩,
    ⟨updLegal_of_all rfl, by decide, by decide, by decide⟩⟩

theorem test_witness_CounterIsMessageLength :
    let us : List (BitVec 3 × Word) := [(4, 0x61626364), (1, 0x65000000)]
    UpdLegal us ∧ 8 * (updMessage us).length ≤ 2 ^ 64 - 1 := ⟨updLegal_of_all rfl, by decide⟩

theorem test_witness_PaddingFormat : 0 ≤ 63 ∧ 55 ≤ 63 ∧ 56 ≤ 63 ∧ 63 ≤ 63 := by decide

theorem test_witness_PaddingFormatterStream : 0 ≤ 63 ∧ 63 ≤ 63 := by decide

/-- One compression at 55 pending bytes, two at 56, and both ends of the range. -/
theorem test_witness_FinPadsAndFinalizes :
    (State.reset.phase ≠ .finalized ∧ State.reset.len.toNat ≤ 55) ∧
    (let s := context .accumulating (List.replicate 55 0x61) 440
     s.phase ≠ .finalized ∧ s.len.toNat ≤ 55) ∧
    (let s := context .accumulating (List.replicate 56 0x61) 448
     s.phase ≠ .finalized ∧ 56 ≤ s.len.toNat) ∧
    (let s := context .accumulating (List.replicate 63 0x61) 504
     s.phase ≠ .finalized ∧ 56 ≤ s.len.toNat) := by decide +kernel

theorem test_witness_FinAfterFinalFaults : afterAbc.phase = .finalized := by decide

theorem test_witness_DigestOfMessage :
    (let us : List (BitVec 3 × Word) := [(3, 0x61626300)]
     UpdLegal us ∧ 8 * (updMessage us).length ≤ 2 ^ 64 - 1) ∧
    (let us : List (BitVec 3 × Word) := []
     UpdLegal us ∧ 8 * (updMessage us).length ≤ 2 ^ 64 - 1) :=
  ⟨⟨updLegal_of_all rfl, by decide⟩, ⟨updLegal_of_all rfl, by decide⟩⟩

theorem test_witness_CompressionCounts :
    usageFaultOf (.upd 4 0) (context .accumulating (List.replicate 60 0) 480) = none ∧ usageFaultOf .fin State.reset = none ∧
      ((usageFaultOf .fin afterAbc).isSome = true) ∧ isRead .rds = true := by decide +kernel

/-- An UPD with and one without a compression, a FIN, a command that faults, and a read. -/
theorem test_witness_CycleBoundCountsCompressions :
    usageFaultOf (.upd 4 0) (context .accumulating (List.replicate 60 0) 480) = none ∧
      usageFaultOf (.upd 4 0) (context .accumulating (List.replicate 59 0) 472) = none ∧
      usageFaultOf .fin (context .accumulating (List.replicate 56 0) 448) = none ∧
      (usageFaultOf .fin afterAbc).isSome = true ∧ isRead (.rdd 0) = true := by decide +kernel

theorem test_witness_RddReturnsDigestWord : afterAbc.phase = .finalized := by decide

theorem test_witness_RddBeforeFinalFaults : (context .accumulating [0x61] 8).phase ≠ .finalized := by decide

theorem test_witness_DigestSerialization : (7 < 8 ∧ 3 < 4) ∧ afterAbc.phase = .finalized := by decide

theorem test_witness_OnlyReadsRespond :
    (∃ t, exec (.rdd 3) State.reset = .next t) ∧ ∃ t, exec .fin State.reset = .next t := ⟨⟨_, rfl⟩, ⟨_, rfl⟩⟩

theorem test_witness_ReadsAreIdempotent :
    isRead (.rdd 3) = true ∧ (∃ t, exec (.rdd 3) afterAbc = .next t) ∧ ∃ t, exec (.rdd 3) State.reset = .next t :=
  ⟨by decide, ⟨_, rfl⟩, ⟨_, rfl⟩⟩

theorem test_witness_HashPseudoCommandDeliversDigest :
    let m : List Byte := [0x61, 0x62, 0x63]
    let s := { afterAbc with inputs := driveCommands (hashCommands m) ++ [quiet] }
    8 * m.length ≤ 2 ^ 64 - 1 ∧ s.rsp = none ∧ s.inputs = driveCommands (hashCommands m) ++ [quiet] := by decide

/-- Each fault of the table that a command can raise, a command that raises none, and a word that is no command. -/
theorem test_witness_UsageFaultTable :
    ((Instr.upd 0 0).wellFormed = true ∧ usageFaultOf (.upd 0 0) afterAbc = some .updAfterFinal) ∧
      (Instr.fin.wellFormed = true ∧ usageFaultOf .fin afterAbc = some .finAfterFinal) ∧
      ((Instr.rdd 0).wellFormed = true ∧ usageFaultOf (.rdd 0) State.reset = some .rddNotFinal) ∧
      ((Instr.upd 1 0).wellFormed = true ∧
        usageFaultOf (.upd 1 0) (context .accumulating [] 0xfffffffffffffff8) = some .cntOverflow) ∧
      usageFaultOf (.upd 1 0) (context .accumulating [] 0xfffffffffffffff0) = none ∧
      decode 0x20000005 0 = .error .countTooLarge := by decide

theorem test_witness_ErrorIsStickyUntilReset :
    let s := { afterAbc with err := true, errCode := 3, inputs := [offering 0x10000000 0] }
    (∃ t, step s = .next t) ∧ (∀ i rest, s.inputs = i :: rest → i.rstN = true) ∧ s.err = true :=
  ⟨⟨_, rfl⟩, fun _ _ h => by cases h; rfl, rfl⟩

theorem test_witness_PhaseTransitions :
    ((Instr.upd 0 0).wellFormed = true ∧ ∃ t, exec (.upd 0 0) afterAbc = .next t) ∧
      (Instr.fin.wellFormed = true ∧ usageFaultOf .fin State.reset = none ∧ ∃ t, exec .fin State.reset = .next t) ∧
      (decode 0x30000001 0 = .error .argNotZero ∧
        ∃ t, acceptCommand { word := 0x30000001, data := 0 } State.reset = .next t) :=
  ⟨⟨by decide, _, rfl⟩, ⟨by decide, by decide, _, rfl⟩, ⟨by decide, _, rfl⟩⟩

/-- The command nearest INIT in phase Finalized: 0x10000001. -/
theorem test_witness_FinalizedIsTerminal :
    let s := { afterAbc with inputs := [offering 0x10000001 0] }
    (∃ t, step s = .next t) ∧ s.phase = .finalized ∧ (∀ i rest, s.inputs = i :: rest → i.rstN = true) ∧
      ∀ i rest c, s.inputs = i :: rest → i.cmd = some c → c.word ≠ 0x10000000 :=
  ⟨⟨_, rfl⟩, rfl, fun _ _ h => by cases h; rfl, fun _ _ _ h hc => by cases h; cases hc; decide⟩

/-- Each of the three commands that write `H`. -/
theorem test_witness_HashWrittenOnlyByCompressionOrInit :
    hashAfter (exec .init afterAbc) ≠ some afterAbc.H ∧ hashAfter (exec .fin State.reset) ≠ some State.reset.H ∧
      hashAfter (exec (.upd 1 0xff000000) (context .accumulating (List.replicate 63 0xff) 504)) ≠ some IV := by
  decide +kernel

/-- The invariant holds of states that a step leaves: before, inside and after a message. -/
theorem test_witness_StepKeepsInvariant :
    (Inv State.reset ∧ ∃ t, step State.reset = .next t) ∧
    (let s := { context .accumulating [0x61, 0x62, 0x63] 24 with inputs := [offering 0x30000000 0] }
     Inv s ∧ ∃ t, step s = .next t) ∧
    (let s := { afterAbc with err := true, errCode := 5, inputs := [offering 0x40000000 0] }
     Inv s ∧ ∃ t, step s = .next t) :=
  ⟨⟨by decide, ⟨_, rfl⟩⟩, ⟨by decide, ⟨_, rfl⟩⟩, ⟨by decide, ⟨_, rfl⟩⟩⟩

/-- Two different states that agree on what R88 lists: another `cnt` in phase Finalized, another byte past `len`. -/
theorem test_witness_HiddenStateIsUnobservable :
    let s := { afterAbc with inputs := [offering 0x40000000 0] }
    let t := { s with cnt := 0, buf := [(63, 0xff)] }
    s ≠ t ∧ Indistinguishable s t := by decide

theorem test_witness_InstancesAreIsolated :
    let p : Platform := [{ afterAbc with inputs := [resetting] }, afterAbc]
    (∃ q, platformStep p 0 = .next q) ∧ p[0]? = some { afterAbc with inputs := [resetting] } := ⟨⟨_, rfl⟩, rfl⟩

end Sys2Proof.Tests
end

section
/-!
SUPPORT. The big-endian encodings (R11, R28): the value of `word_be` and the bytes of `be32` and `be64`, most significant first.
-/

namespace Sys2Proof.Machine

/-- Appending a byte to the low end of a bit vector multiplies its value by 2^8 and adds the byte's. -/
theorem toNat_append_byte {n : Nat} (x : BitVec n) (b : Byte) : (x ++ b).toNat = x.toNat * 2 ^ 8 + b.toNat := by
  rw [BitVec.toNat_append, ← Nat.shiftLeft_add_eq_or_of_lt b.isLt, Nat.shiftLeft_eq]

theorem byteOf_eq_getElem {s : List Byte} {i : Nat} (h : i < s.length) : byteOf s i = s[i] := by
  simp [byteOf, h]

/-- The value of `word_be` by its four bytes (R11). -/
theorem wordBe_toNat (s : List Byte) (i : Nat) :
    (wordBe s i).toNat = (byteOf s i).toNat * 2 ^ 24 + (byteOf s (i + 1)).toNat * 2 ^ 16 +
      (byteOf s (i + 2)).toNat * 2 ^ 8 + (byteOf s (i + 3)).toNat := by
  simp only [wordBe, toNat_append_byte]
  omega

@[simp] theorem be32_length (w : Word) : (be32 w).length = 4 := rfl

@[simp] theorem be64_length (v : BitVec 64) : (be64 v).length = 8 := rfl

/-- Byte `k` of `be32(w)` is `w[31-8k:24-8k]` (R11). -/
theorem be32_getElem? (w : Word) {k : Nat} (h : k < 4) : (be32 w)[k]? = some (w.extractLsb' (24 - 8 * k) 8) := by
  match k with
  | 0 | 1 | 2 | 3 => rfl

/-- Bits `lo+7..lo` of one half of a 64-bit value, the half from bit `start` on, are bits of the value. -/
theorem extractLsb'_byte_of_half (v : BitVec 64) {lo : Nat} (h : lo + 8 ≤ 32) (start : Nat) :
    (v.extractLsb' start 32).extractLsb' lo 8 = v.extractLsb' (start + lo) 8 := by
  ext j hj
  have hin : lo + j < 32 := by omega
  simp [hin, Nat.add_assoc]

/-- Byte `k` of `be64(v)` is `v[63-8k:56-8k]` (R11): the high half gives the first four bytes, the low half the last four. -/
theorem be64_getElem? (v : BitVec 64) {k : Nat} (h : k < 8) :
    (be64 v)[k]? = some (v.extractLsb' (56 - 8 * k) 8) := by
  unfold be64
  by_cases hk : k < 4
  · rw [List.getElem?_append_left hk, be32_getElem? _ hk, extractLsb'_byte_of_half v (by omega)]
    congr 2
    omega
  · have hlow : k - 4 < 4 := by omega
    rw [List.getElem?_append_right (by simpa using hk), be32_length, be32_getElem? _ hlow,
      extractLsb'_byte_of_half v (by omega)]
    congr 2
    omega

/-- `word_be` undoes `be32`: the four bytes are adjacent slices of the word. -/
@[simp] theorem wordBe_be32 (w : Word) : wordBe (be32 w) 0 = w := by
  change w.extractLsb' 24 8 ++ w.extractLsb' 16 8 ++ w.extractLsb' 8 8 ++ w.extractLsb' 0 8 = w
  rw [BitVec.extractLsb'_append_extractLsb'_eq_extractLsb' (by rfl),
    BitVec.extractLsb'_append_extractLsb'_eq_extractLsb' (by rfl),
    BitVec.extractLsb'_append_extractLsb'_eq_extractLsb' (by rfl)]
  exact BitVec.extractLsb'_eq_self

/-- Settles O15: the value of `word_be`, each byte of `be32` and `be64`, and `word_be` of `be32`. -/
theorem bigEndianWords : Obligations.BigEndianWords := by
  refine ⟨fun s i h => ?_, fun w => ⟨be32_length w, fun k => be32_getElem? w, wordBe_be32 w⟩,
    fun v => ⟨be64_length v, fun k => be64_getElem? v⟩⟩
  rw [wordBe_toNat, byteOf_eq_getElem (by omega), byteOf_eq_getElem (by omega), byteOf_eq_getElem (by omega),
    byteOf_eq_getElem (by omega)]

end Sys2Proof.Machine
end

section
/-!
SUPPORT. The usage faults of the commands against the table of R91 and R92: a command that the table gives a fault raises it and, if it
is a read command, responds 0 (R13, R85); any other leaves ERR and ERRCODE.
-/

namespace Sys2Proof.Machine

/-! ## The table, command by command -/

/-- A word that is no command raises ILLEGAL (R66). -/
theorem acceptCommand_of_error {c : CommandPair} {e : DecodeError} (h : decode c.word c.data = .error e) (s : State) :
    acceptCommand c s = .next (raiseUsageFault .illegal s) := by
  simp [acceptCommand, h]

/-- What a command's answer must be in a state, by the table's entry for it. -/
def AnswersFault (i : Instr) (s : State) : Option UsageFault → Prop
  | some f => exec i s = .next (raiseUsageFault f (if isRead i then respond 0 s else s))
  | none => ∃ t, exec i s = .next t ∧ t.err = s.err ∧ t.errCode = s.errCode

theorem upd_answersFault {n : BitVec 3} (hn : n.toNat ≤ 4) (data : Word) (s : State) :
    AnswersFault (.upd n data) s (usageFaultOf (.upd n data) s) := by
  have hwf : (Instr.upd n data).wellFormed = true := decide_eq_true hn
  obtain ⟨hbig, -⟩ | ⟨-, hp, hexec⟩ | ⟨-, hp, hc, hexec⟩ | ⟨-, hp, hc, hexec⟩ := execUpd_cases n data s
  · omega
  · have htable : usageFaultOf (.upd n data) s = some .updAfterFinal := by simp only [usageFaultOf, hwf, hp, if_true]
    rw [htable]
    exact hexec
  · have htable : usageFaultOf (.upd n data) s = some .cntOverflow := by
      simp only [usageFaultOf, hwf, hp, hc, if_true, if_false]
    rw [htable]
    exact hexec
  · have htable : usageFaultOf (.upd n data) s = none := by
      simp only [usageFaultOf, hwf, hp, hc.not_ge, if_true, if_false]
    rw [htable]
    exact ⟨_, hexec, absorbAll_err _ _, absorbAll_errCode _ _⟩

theorem fin_answersFault (s : State) : AnswersFault .fin s (usageFaultOf .fin s) := by
  obtain ⟨hp, hexec⟩ | ⟨hp, hexec⟩ := execFin_cases s
  · have htable : usageFaultOf .fin s = some .finAfterFinal := if_pos hp
    rw [htable]
    exact hexec
  · have htable : usageFaultOf .fin s = none := if_neg hp
    rw [htable]
    exact ⟨_, hexec, absorbAll_err _ _, absorbAll_errCode _ _⟩

theorem rdd_answersFault (i : BitVec 3) (s : State) : AnswersFault (.rdd i) s (usageFaultOf (.rdd i) s) := by
  obtain ⟨hp, hexec⟩ | ⟨hp, hexec⟩ := execRdd_cases i s
  · have htable : usageFaultOf (.rdd i) s = none := if_pos hp
    rw [htable]
    exact ⟨_, hexec, rfl, rfl⟩
  · have htable : usageFaultOf (.rdd i) s = some .rddNotFinal := if_neg hp
    rw [htable]
    exact hexec

/-- Every command answers as the table says. -/
theorem exec_answersFault {i : Instr} (h : i.wellFormed = true) (s : State) : AnswersFault i s (usageFaultOf i s) := by
  cases i with
  | init => exact ⟨_, rfl, rfl, rfl⟩
  | upd n data => exact upd_answersFault (of_decide_eq_true h) data s
  | fin => exact fin_answersFault s
  | rdd i => exact rdd_answersFault i s
  | rds => exact ⟨_, rfl, rfl, rfl⟩

/-- A command that the table gives a fault raises it and changes nothing else, but for the zero a read command responds (R13, R85). -/
theorem exec_of_usageFault {i : Instr} {s : State} {f : UsageFault} (hwf : i.wellFormed = true)
    (hf : usageFaultOf i s = some f) : exec i s = .next (raiseUsageFault f (if isRead i then respond 0 s else s)) := by
  have h := exec_answersFault hwf s
  rwa [hf] at h

/-- A command that the table gives no fault leaves ERR and ERRCODE (R90). -/
theorem exec_of_no_usageFault {i : Instr} {s : State} (hwf : i.wellFormed = true) (hf : usageFaultOf i s = none) :
    ∃ t, exec i s = .next t ∧ t.err = s.err ∧ t.errCode = s.errCode := by
  have h := exec_answersFault hwf s
  rwa [hf] at h

/-- Settles O47: the faults and the commands without one by the table's entry, command by command; a word that is no command by the
case of R66. -/
theorem usageFaultTable : Obligations.UsageFaultTable := by
  refine ⟨fun i s hwf => ⟨fun f hf => ?_, exec_of_no_usageFault hwf⟩, fun c e s hd => acceptCommand_of_error hd s⟩
  rw [exec_of_usageFault hwf hf]
  cases isRead i <;> rfl

end Sys2Proof.Machine
end

section
/-!
SUPPORT. What a command does, said once for all of them: `effect` is the next state of a command that raises no usage fault, and a command
either raises the fault of the table (R91, R92) or has its effect. Beside it, when UPD and FIN raise none, and what their bytes do to
`len` and `H`.
-/

namespace Sys2Proof.Machine

/-! ## When a command raises no usage fault -/

theorem usageFaultOf_upd_eq_none (n : BitVec 3) (data : Word) (s : State) :
    usageFaultOf (.upd n data) s = none ↔
      n.toNat ≤ 4 ∧ s.phase ≠ .finalized ∧ s.cnt.toNat + 8 * n.toNat < 2 ^ 64 := by
  by_cases hn : n.toNat ≤ 4
  · by_cases hp : s.phase = .finalized <;> simp [usageFaultOf, Instr.wellFormed, hn, hp]
  · simp [usageFaultOf, Instr.wellFormed, hn]

theorem usageFaultOf_fin_eq_none (s : State) : usageFaultOf .fin s = none ↔ s.phase ≠ .finalized := by
  simp [usageFaultOf, Instr.wellFormed]

/-! ## The outcome of a command -/

/-- The next state of a command that raises no usage fault: R67, R68, R76, R85, R87. -/
def effect (i : Instr) (s : State) : State :=
  match i with
  | .init => { s with H := IV, len := 0, cnt := 0, phase := .empty }
  | .upd n data =>
    { absorbAll (lanes n data) s with cnt := s.cnt + BitVec.ofNat 64 (8 * n.toNat), phase := .accumulating }
  | .fin =>
    { absorbAll (pad s.len.toNat s.cnt) s with
      cnt := s.cnt + BitVec.ofNat 64 (8 * (pad s.len.toNat s.cnt).length), phase := .finalized }
  | .rdd w => respond (digestWord s.H w) s
  | .rds => respond (statusWord s) s

/-- The table's fault is the one raised, also by the terms `upd 5..7` (log 15). -/
theorem exec_raises {i : Instr} {s : State} {f : UsageFault} (hf : usageFaultOf i s = some f) :
    exec i s = .next (raiseUsageFault f (if isRead i then respond 0 s else s)) := by
  cases hwf : i.wellFormed with
  | true => exact exec_of_usageFault hwf hf
  | false =>
    have hill : f = .illegal := by simpa [usageFaultOf, hwf] using hf.symm
    cases i with
    | upd n data =>
      have hn : 4 < n.toNat := by simpa [Instr.wellFormed] using hwf
      exact hill ▸ if_pos hn
    | init | fin | rdd | rds => cases hwf

theorem exec_effect {i : Instr} {s : State} (hf : usageFaultOf i s = none) : exec i s = .next (effect i s) := by
  cases i with
  | init => rfl
  | upd n data =>
    obtain ⟨hn, hp, hc⟩ := (usageFaultOf_upd_eq_none n data s).mp hf
    obtain ⟨hbig, -⟩ | ⟨-, hfin, -⟩ | ⟨-, -, hover, -⟩ | ⟨-, -, -, hexec⟩ := execUpd_cases n data s
    · omega
    · exact absurd hfin hp
    · omega
    · exact hexec
  | fin =>
    obtain ⟨hfin, -⟩ | ⟨-, hexec⟩ := execFin_cases s
    · exact absurd hfin ((usageFaultOf_fin_eq_none s).mp hf)
    · exact hexec
  | rdd w =>
    obtain ⟨-, hexec⟩ | ⟨hp, -⟩ := execRdd_cases w s
    · exact hexec
    · simp [usageFaultOf, Instr.wellFormed, hp] at hf
  | rds => rfl

/-- Every outcome of a command: the table's fault, with the zero response if it is a read command, or its effect. -/
theorem exec_cases {i : Instr} {s t : State} (h : exec i s = .next t) :
    (∃ f, usageFaultOf i s = some f ∧ t = raiseUsageFault f (if isRead i then respond 0 s else s)) ∨
    (usageFaultOf i s = none ∧ t = effect i s) := by
  cases hf : usageFaultOf i s with
  | none => exact .inr ⟨rfl, by simpa [exec_effect hf] using h.symm⟩
  | some f => exact .inl ⟨f, rfl, by simpa [exec_raises hf] using h.symm⟩

/-! ## The bytes of UPD and FIN -/

@[simp] theorem updMessage_cons (n : BitVec 3) (data : Word) (us : List (BitVec 3 × Word)) :
    updMessage ((n, data) :: us) = lanes n data ++ updMessage us := rfl

theorem lanes_length {n : BitVec 3} (h : n.toNat ≤ 4) (data : Word) : (lanes n data).length = n.toNat := by
  simpa [lanes] using h

/-- An UPD adds eight to the BitCounter for each of its bytes (R70). -/
theorem upd_effect_cnt {n : BitVec 3} {data : Word} {s : State} (h : s.cnt.toNat + 8 * n.toNat < 2 ^ 64) :
    (effect (.upd n data) s).cnt.toNat = s.cnt.toNat + 8 * n.toNat := by
  simp only [effect, BitVec.toNat_add, BitVec.toNat_ofNat]
  omega

/-- Absorbing bytes that do not fill the PendingBuffer compresses nothing. -/
theorem absorbAll_H_of_room {bs : List Byte} {s : State} (h : s.len.toNat + bs.length < 64) :
    (absorbAll bs s).H = s.H := by
  rw [(absorbAll_blocks bs s).1, blocks_of_short (by simpa using h)]
  rfl

/-- FIN's padding leaves no byte pending (R79). -/
theorem absorbAll_pad_len (bits : BitVec 64) (s : State) : (absorbAll (pad s.len.toNat bits) s).len = 0 := by
  have hlt := s.len.isLt
  apply BitVec.eq_of_toNat_eq
  rw [absorbAll_len, pad_length hlt]
  split <;> simp <;> omega

end Sys2Proof.Machine
end

section
/-!
SUPPORT. The invariant of the block (R18 to R21), kept by each update of the state, then by each command, then by every step.
-/

namespace Sys2Proof.Machine

/-! ## The updates -/

theorem raiseUsageFault_errorSound {s : State} (h : ErrorSound s) (f : UsageFault) : ErrorSound (raiseUsageFault f s) := by
  obtain ⟨-, hcode⟩ := h
  refine ⟨nofun, fun _ => ?_⟩
  cases herr : s.err with
  | false => simpa [herr] using f.code_range
  | true => simpa [herr] using hcode herr

theorem raiseUsageFault_inv {s : State} (h : Inv s) (f : UsageFault) : Inv (raiseUsageFault f s) := by
  obtain ⟨hbuf, hcount, hphase, herror⟩ := h
  exact ⟨hbuf, hcount, hphase, raiseUsageFault_errorSound herror f⟩

theorem respond_inv {s : State} (h : Inv s) (w : Word) : Inv (respond w s) := h

theorem deliver_inv {s : State} (h : Inv s) (w : Word) (ready : Bool) : Inv (deliver w ready s) := by
  cases ready <;> exact h

theorem resetBlock_inv (s : State) : Inv (resetBlock s) :=
  ⟨⟨Memory.nil_wf, nofun⟩, fun _ => by simp, ⟨fun _ => ⟨rfl, rfl⟩, nofun⟩, fun _ => rfl, nofun⟩

/-! ## The commands -/

theorem init_effect_inv {s : State} (h : Inv s) : Inv (effect .init s) := by
  obtain ⟨⟨hwf, -⟩, -, -, herror⟩ := h
  exact ⟨⟨hwf, nofun⟩, fun _ => by simp [effect], ⟨fun _ => ⟨rfl, rfl⟩, nofun⟩, herror⟩

/-- An UPD adds its bytes to `len` modulo 64 and eight times their number to the BitCounter, which does not overflow (R70). -/
theorem upd_effect_countSound {n : BitVec 3} {data : Word} {s : State} (h : CountSound s)
    (hf : usageFaultOf (.upd n data) s = none) : CountSound (effect (.upd n data) s) := by
  obtain ⟨hn, hp, hfit⟩ := (usageFaultOf_upd_eq_none n data s).mp hf
  obtain ⟨hdvd, hlen⟩ := h hp
  have hlen' : (effect (.upd n data) s).len.toNat = (s.len.toNat + n.toNat) % 64 := by
    simp only [effect, absorbAll_len, lanes_length hn]
  intro _
  rw [upd_effect_cnt hfit, hlen']
  omega

theorem upd_effect_inv {n : BitVec 3} {data : Word} {s : State} (h : Inv s)
    (hf : usageFaultOf (.upd n data) s = none) : Inv (effect (.upd n data) s) := by
  obtain ⟨hbuf, hcount, -, herror⟩ := h
  refine ⟨absorbAll_bufferSound _ s hbuf, upd_effect_countSound hcount hf, ⟨nofun, nofun⟩, ?_⟩
  simpa [effect, ErrorSound] using herror

theorem fin_effect_inv {s : State} (h : Inv s) : Inv (effect .fin s) := by
  obtain ⟨hbuf, -, -, herror⟩ := h
  refine ⟨absorbAll_bufferSound _ s hbuf, fun hp => absurd rfl hp, ⟨nofun, fun _ => absorbAll_pad_len s.cnt s⟩, ?_⟩
  simpa [effect, ErrorSound] using herror

theorem effect_inv {i : Instr} {s : State} (h : Inv s) (hf : usageFaultOf i s = none) : Inv (effect i s) := by
  cases i with
  | init => exact init_effect_inv h
  | upd n data => exact upd_effect_inv h hf
  | fin => exact fin_effect_inv h
  | rdd w => exact respond_inv h _
  | rds => exact respond_inv h _

theorem exec_inv {i : Instr} {s t : State} (h : Inv s) (he : exec i s = .next t) : Inv t := by
  obtain ⟨f, -, rfl⟩ | ⟨hf, rfl⟩ := exec_cases he
  · cases isRead i with
    | true => exact raiseUsageFault_inv (respond_inv h 0) f
    | false => exact raiseUsageFault_inv h f
  · exact effect_inv h hf

/-! ## The step -/

/-- Settles O52: reading a sample touches no field of the invariant; then the reaction to it is one of the updates above or a command. -/
theorem stepKeepsInvariant : Obligations.StepKeepsInvariant := by
  intro s t h hstep
  obtain ⟨-, rfl⟩ | ⟨i, rest, -, hreact⟩ := step_cases hstep
  · exact h
  · have hread : Inv { s with inputs := rest } := h
    obtain ⟨-, rfl⟩ | ⟨-, w, -, rfl⟩ | ⟨-, -, -, rfl⟩ | ⟨-, -, c, e, -, -, rfl⟩ | ⟨-, -, c, j, -, -, hexec⟩ := hreact
    · exact resetBlock_inv _
    · exact deliver_inv hread w i.rspReady
    · exact hread
    · exact raiseUsageFault_inv hread .illegal
    · exact exec_inv hread hexec

end Sys2Proof.Machine
end

section
/-!
SUPPORT. Which commands change the phase (R20) and which write `H` (R16).
-/

namespace Sys2Proof.Machine

/-- A command that raises a usage fault keeps the phase and `H` (R13). -/
theorem raised_phase_and_H (i : Instr) (f : UsageFault) (s : State) :
    (raiseUsageFault f (if isRead i then respond 0 s else s)).phase = s.phase ∧
      (raiseUsageFault f (if isRead i then respond 0 s else s)).H = s.H := by
  cases isRead i <;> exact ⟨rfl, rfl⟩

/-- Settles O49: the encoding phase by phase; a command that raises a fault keeps the phase, and the effect of each other command sets the
phase of its row. -/
theorem phaseTransitions : Obligations.PhaseTransitions := by
  refine ⟨⟨rfl, rfl, rfl, fun p => by cases p <;> decide⟩, resetBlock_phase, fun i s t _ he => ?_, fun c e s t hd ha => ?_⟩
  · obtain ⟨f, hf, rfl⟩ | ⟨hf, rfl⟩ := exec_cases he
    · rw [hf]
      exact (raised_phase_and_H i f s).1
    · rw [hf]
      cases i <;> rfl
  · rw [acceptCommand_of_error hd] at ha
    cases ha
    rfl

/-- Settles O51: a command that raises a fault keeps `H`; of the effects, those of the read commands keep it, and so does that of an UPD
whose bytes do not fill the PendingBuffer. -/
theorem hashWrittenOnlyByCompressionOrInit : Obligations.HashWrittenOnlyByCompressionOrInit := by
  intro i s t he hH
  obtain ⟨f, -, rfl⟩ | ⟨hf, rfl⟩ := exec_cases he
  · exact absurd (raised_phase_and_H i f s).2 hH
  · cases i with
    | init => exact .inl rfl
    | fin => exact .inr (.inl ⟨rfl, (usageFaultOf_fin_eq_none s).mp hf⟩)
    | upd n data =>
      obtain ⟨hn, hp, -⟩ := (usageFaultOf_upd_eq_none n data s).mp hf
      refine .inr (.inr ⟨n, data, rfl, hp, ?_⟩)
      by_contra hroom
      exact hH (absorbAll_H_of_room (by rw [lanes_length hn]; omega))
    | rdd w => exact absurd rfl hH
    | rds => exact absurd rfl hH

end Sys2Proof.Machine
end

section
/-!
SUPPORT. A sequence of legal UPDs is one absorption of the bytes they carry (R68, R70), so that the BitCounter and `len` count them (R19).
-/

namespace Sys2Proof.Machine

theorem execAll_cons {i : Instr} {s t : State} (h : exec i s = .next t) (is : List Instr) :
    execAll (i :: is) s = execAll is t := by
  rw [execAll, h]

/-- Absorbing looks neither at the BitCounter nor at the phase. -/
theorem absorbAll_withCnt_withPhase (bs : List Byte) (s : State) (c : BitVec 64) (p : Phase) :
    absorbAll bs { s with cnt := c, phase := p } = { absorbAll bs s with cnt := c, phase := p } := by
  rw [absorbAll_withPhase bs { s with cnt := c } p, absorbAll_withCnt]

/-- The next state of legal UPDs that carry the bytes `m`, where the BitCounter has room for them. -/
theorem execAll_updCommands {us : List (BitVec 3 × Word)} {s : State} (hlegal : UpdLegal us) (hp : s.phase ≠ .finalized)
    (hfit : s.cnt.toNat + 8 * (updMessage us).length < 2 ^ 64) :
    execAll (updCommands us) s = .next { absorbAll (updMessage us) s with
      cnt := s.cnt + BitVec.ofNat 64 (8 * (updMessage us).length)
      phase := if us = [] then s.phase else .accumulating } := by
  induction us generalizing s with
  | nil => simp [updCommands, updMessage, execAll]
  | cons u us ih =>
    obtain ⟨n, data⟩ := u
    obtain ⟨hn, hrest⟩ := List.forall_mem_cons.mp hlegal
    have hlen := lanes_length hn data
    simp only [updMessage_cons, List.length_append, hlen, Nat.mul_add] at hfit ⊢
    have hexec : exec (.upd n data) s = .next (effect (.upd n data) s) :=
      exec_effect ((usageFaultOf_upd_eq_none n data s).mpr ⟨hn, hp, by omega⟩)
    have hcnt : (effect (.upd n data) s).cnt.toNat = s.cnt.toNat + 8 * n.toNat := upd_effect_cnt (by omega)
    have htail := ih (s := effect (.upd n data) s) hrest nofun (by omega)
    rw [updCommands, List.map_cons, execAll_cons hexec, ← updCommands, htail]
    simp only [effect, absorbAll_withCnt_withPhase, absorbAll_append, BitVec.ofNat_add, BitVec.add_assoc, ite_self,
      reduceCtorEq, if_false]

/-- Settles O32: INIT leaves the BitCounter and `len` 0, and the UPDs absorb the bytes they carry. -/
theorem counterIsMessageLength : Obligations.CounterIsMessageLength := by
  intro us s hlegal hfit
  have hinit : exec .init s = .next (effect .init s) := rfl
  have hcnt : (effect .init s).cnt.toNat = 0 := rfl
  have hlen : (effect .init s).len.toNat = 0 := rfl
  refine ⟨_, (execAll_cons hinit _).trans (execAll_updCommands hlegal nofun (by omega)), ?_, ?_⟩
  · rw [BitVec.toNat_add, BitVec.toNat_ofNat, hcnt]
    omega
  · rw [absorbAll_len, hlen, Nat.zero_add]

end Sys2Proof.Machine
end

section
/-!
SUPPORT. The IV's words as square roots of primes (R17).
-/

namespace Sys2Proof.Machine

/-- A prime with `i` primes below it is the prime at position `i`, counted from 0. -/
theorem nth_prime_of_count {p i : Nat} (hp : p.Prime) (hi : Nat.count Nat.Prime p = i) : Nat.nth Nat.Prime i = p := by
  rw [← hi, Nat.nth_count hp]

/-- The primes that R17 names. -/
def ivPrimes : Vector Nat 8 := #v[2, 3, 5, 7, 11, 13, 17, 19]

theorem nth_prime_eq_ivPrimes : ∀ i : Fin 8, Nat.nth Nat.Prime i = ivPrimes[i] := by
  have hp : ∀ i : Fin 8, Nat.Prime ivPrimes[i] ∧ Nat.count Nat.Prime ivPrimes[i] = i := by decide
  exact fun i => nth_prime_of_count (hp i).1 (hp i).2

/-- The integer square root of `p · 2^64` is `sqrt(p) · 2^32` rounded down: its low 32 bits are the first of the fractional part. -/
theorem IV_eq_sqrt_ivPrimes : ∀ i : Fin 8, IV[i] = BitVec.ofNat 32 (Nat.sqrt (ivPrimes[i] * 2 ^ 64)) := by
  decide +kernel

/-- Settles O18: the table as it stands, the roots by the primes, and reset and INIT by their definitions. -/
theorem initialHashFromSquareRoots : Obligations.InitialHashFromSquareRoots := by
  refine ⟨rfl, fun i => ?_, rfl, resetBlock_H, fun s => ⟨_, rfl, rfl⟩⟩
  rw [nth_prime_eq_ivPrimes, IV_eq_sqrt_ivPrimes]

end Sys2Proof.Machine
end

section
/-!
SUPPORT. The two ports, command by command and sample by sample (20_memory.md): what responds and what that word is (R29), that reads
leave the context alone and repeat (R30, R85), and when a sample transfers a command (R25, R101).
-/

namespace Sys2Proof.Machine

/-! ## The response of a command -/

/-- Every command answers a next state, with or without a usage fault (R90, R114). -/
theorem exec_next (i : Instr) (s : State) : ∃ t, exec i s = .next t := by
  cases hf : usageFaultOf i s with
  | none => exact ⟨_, exec_effect hf⟩
  | some f => exact ⟨_, exec_raises hf⟩

/-- RDD raises no usage fault exactly in phase Finalized (R85). -/
theorem usageFaultOf_rdd_eq_none (w : BitVec 3) (s : State) : usageFaultOf (.rdd w) s = none ↔ s.phase = .finalized := by
  simp [usageFaultOf, Instr.wellFormed]

/-- RDD is the only read command that can fault, and it then responds 0 (R85). -/
theorem responseOf_of_usageFault {i : Instr} {s : State} {f : UsageFault} (hread : isRead i = true)
    (hf : usageFaultOf i s = some f) : responseOf i s = some 0 := by
  cases i with
  | init | upd | fin => cases hread
  | rdd w =>
    have hp : s.phase ≠ .finalized := by
      rw [Ne, ← usageFaultOf_rdd_eq_none w s, hf]
      exact nofun
    exact if_neg hp
  | rds => cases hf

/-- The response register after a command that raises no usage fault (R29): only the read commands load it. -/
theorem effect_rsp {i : Instr} {s : State} (hf : usageFaultOf i s = none) :
    (effect i s).rsp = if isRead i then responseOf i s else s.rsp := by
  cases i with
  | init | rds => rfl
  | upd n data => exact absorbAll_rsp (lanes n data) s
  | fin => exact absorbAll_rsp (pad s.len.toNat s.cnt) s
  | rdd w => exact (if_pos ((usageFaultOf_rdd_eq_none w s).mp hf)).symm

/-- Settles O44: a command that raises a fault loads the zero of a faulting RDD or nothing, any other has its effect. -/
theorem onlyReadsRespond : Obligations.OnlyReadsRespond := by
  intro i s t he
  obtain ⟨f, hf, rfl⟩ | ⟨hf, rfl⟩ := exec_cases he
  · cases hread : isRead i with
    | true => exact (responseOf_of_usageFault hread hf).symm
    | false => rfl
  · exact effect_rsp hf

/-! ## Reads -/

/-- A read command has no effect on the digest context, also when it faults (R30, R85). -/
theorem read_context {i : Instr} {s t : State} (hread : isRead i = true) (he : exec i s = .next t) :
    t.H = s.H ∧ t.buf = s.buf ∧ t.len = s.len ∧ t.cnt = s.cnt ∧ t.phase = s.phase := by
  obtain ⟨f, -, rfl⟩ | ⟨-, rfl⟩ := exec_cases he
  · rw [hread]
    exact ⟨rfl, rfl, rfl, rfl, rfl⟩
  · cases i with
    | init | upd | fin => cases hread
    | rdd | rds => exact ⟨rfl, rfl, rfl, rfl, rfl⟩

/-- What a read command responds is the same after it: RDD keeps the phase and `H`, RDS raises no fault and so keeps STATUS. -/
theorem responseOf_after_read {i : Instr} {s t : State} (hread : isRead i = true) (he : exec i s = .next t) :
    responseOf i { t with rsp := none } = responseOf i s := by
  cases i with
  | init | upd | fin => cases hread
  | rdd w =>
    obtain ⟨hH, -, -, -, hphase⟩ := read_context hread he
    simp only [responseOf, hH, hphase]
  | rds =>
    cases he
    rfl

/-- Settles O45: each of the two reads leaves its response in the register (O44), and the second's is the first's. -/
theorem readsAreIdempotent : Obligations.ReadsAreIdempotent := by
  intro i s t hread he
  obtain ⟨hH, hbuf, hlen, hcnt, hphase⟩ := read_context hread he
  obtain ⟨u, hu⟩ := exec_next i { t with rsp := none }
  have hfirst : t.rsp = responseOf i s := by simpa [hread] using onlyReadsRespond i s t he
  have hsecond : u.rsp = responseOf i { t with rsp := none } := by simpa [hread] using onlyReadsRespond i _ u hu
  exact ⟨hH, hbuf, hlen, hcnt, hphase, u, hu, by rw [hsecond, responseOf_after_read hread he, hfirst]⟩

/-! ## The command port -/

theorem cmdReady_iff (i : PortInput) (s : State) : cmdReady i s = true ↔ i.rstN = true ∧ s.rsp = none := by
  simp [cmdReady]

/-- A block that is ready accepts the command a sample offers (R25). -/
theorem portAction_of_offered {i : PortInput} {s : State} {c : CommandPair} (hready : cmdReady i s = true)
    (hcmd : i.cmd = some c) : portAction i s = .accept c := by
  obtain ⟨hrst, hrsp⟩ := (cmdReady_iff i s).mp hready
  simp only [portAction, hrst, hrsp, hcmd, if_true]

/-- A block that is ready does nothing in a sample that offers no command (R101). -/
theorem portAction_of_not_offered {i : PortInput} {s : State} (hready : cmdReady i s = true) (hcmd : i.cmd = none) :
    portAction i s = .idle := by
  obtain ⟨hrst, hrsp⟩ := (cmdReady_iff i s).mp hready
  simp only [portAction, hrst, hrsp, hcmd, if_true]

/-- A sample that accepts a command finds the block out of reset and no response undelivered (R25, R29). -/
theorem cmdReady_of_accept {i : PortInput} {s : State} {c : CommandPair} (h : portAction i s = .accept c) :
    cmdReady i s = true := by
  rw [cmdReady_iff]
  unfold portAction at h
  cases hrst : i.rstN with
  | false => simp [hrst] at h
  | true =>
    cases hrsp : s.rsp with
    | some w => simp [hrst, hrsp] at h
    | none => exact ⟨rfl, rfl⟩

theorem portAction_eq_accept_iff (i : PortInput) (s : State) (c : CommandPair) :
    portAction i s = .accept c ↔ i.cmd = some c ∧ cmdReady i s = true := by
  refine ⟨fun h => ?_, fun ⟨hcmd, hready⟩ => portAction_of_offered hready hcmd⟩
  have hready := cmdReady_of_accept h
  cases hcmd : i.cmd with
  | none =>
    rw [portAction_of_not_offered hready hcmd] at h
    cases h
  | some offered =>
    rw [portAction_of_offered hready hcmd] at h
    cases h
    exact ⟨rfl, hready⟩

/-- A step with samples left is the block's reaction to the first (R25). -/
theorem step_of_inputs_cons {s : State} {i : PortInput} {rest : List PortInput} (h : s.inputs = i :: rest) :
    step s = reactTo i { s with inputs := rest } := by
  simp [step, h]

/-- With nothing to transfer the block keeps its state (R101). -/
theorem reactTo_idle {i : PortInput} {s : State} (hready : cmdReady i s = true) (hcmd : i.cmd = none) :
    reactTo i s = .next s := by
  rw [reactTo, portAction_of_not_offered hready hcmd]

/-- With no sample left the block keeps its state (R101). -/
theorem step_of_inputs_nil {s : State} (h : s.inputs = []) : step s = .next s := by
  simp [step, h]

/-- Settles O6: the action of a sample by whether the block is ready and what is offered, then the two steps that transfer nothing. -/
theorem commandTransferNeedsValidAndReady : Obligations.CommandTransferNeedsValidAndReady := by
  refine ⟨portAction_eq_accept_iff, fun s i rest hin hrst hrsp hcmd => ?_, fun _ => step_of_inputs_nil⟩
  rw [step_of_inputs_cons hin]
  exact reactTo_idle ((cmdReady_iff i _).mpr ⟨hrst, hrsp⟩) hcmd

end Sys2Proof.Machine
end

section
/-!
SUPPORT. The decoder and the encoder against each other (R32 to R37): which words are commands, what each of them means, and that the data
word is UPD's operand and nothing else.
-/

namespace Sys2Proof

/-! ## Decoding a word made of its fields -/

theorem decode_commandWord (op : BitVec 4) (arg : BitVec 3) (data : Word) :
    decode (commandWord op arg) data = decodeFields op arg data := by
  rw [decode_of_rsv_zero (rsvField_commandWord op arg), opField_commandWord, argField_commandWord]

/-- Settles O9: the fields of the encoded word are the command's opcode and argument, and UPD's argument is in range. -/
theorem decodeOfEncode : Obligations.DecodeOfEncode := by
  intro i hwf
  cases i with
  | init => exact decode_commandWord 1 0 0
  | upd n data => exact (decode_commandWord 2 n data).trans (if_pos (of_decide_eq_true hwf))
  | fin => exact decode_commandWord 3 0 0
  | rdd w => exact decode_commandWord 4 w 0
  | rds => exact decode_commandWord 5 0 0

/-! ## The data word -/

/-- A command sent with another data word, which only UPD reads (R33). -/
def Instr.withData (data : Word) : Instr → Instr
  | .init => .init
  | .upd n _ => .upd n data
  | .fin => .fin
  | .rdd w => .rdd w
  | .rds => .rds

theorem decodeNoArg_withData {i : Instr} {data : Word} (h : i.withData data = i) (arg : BitVec 3) :
    decodeNoArg arg i = (decodeNoArg arg i).map (Instr.withData data) := by
  unfold decodeNoArg
  split
  · exact congrArg Except.ok h.symm
  · rfl

/-- Another data word changes UPD's operand and nothing else, the reason of a rejection included. -/
theorem decodeFields_withData (op : BitVec 4) (arg : BitVec 3) (data data' : Word) :
    decodeFields op arg data' = (decodeFields op arg data).map (Instr.withData data') := by
  unfold decodeFields
  split
  · exact decodeNoArg_withData rfl arg
  · split <;> rfl
  · exact decodeNoArg_withData rfl arg
  · rfl
  · exact decodeNoArg_withData rfl arg
  · rfl

theorem decode_withData (cmd data data' : Word) :
    decode cmd data' = (decode cmd data).map (Instr.withData data') := by
  by_cases hrsv : rsvField cmd = 0
  · rw [decode_of_rsv_zero hrsv, decode_of_rsv_zero hrsv, decodeFields_withData]
  · rw [decode_of_rsv_ne_zero hrsv, decode_of_rsv_ne_zero hrsv]
    rfl

/-- Settles O11: a rejection holds no operand. -/
theorem legalityIgnoresData : Obligations.LegalityIgnoresData := by
  intro cmd data data' e h
  rw [decode_withData cmd data data', h]
  rfl

/-! ## What a word decodes to -/

/-- What a word decodes to is well formed, encodes to the word, and has no data word but the one the word came with. -/
theorem decode_sound {cmd data : Word} {i : Instr} (h : decode cmd data = .ok i) :
    i.wellFormed = true ∧ (encode i).1 = cmd ∧ i.withData data = i := by
  by_cases hrsv : rsvField cmd = 0
  · rw [decode_of_rsv_zero hrsv] at h
    have hcmd := commandWord_fields hrsv
    obtain ⟨hop, harg, rfl⟩ | ⟨hop, hn, rfl⟩ | ⟨hop, harg, rfl⟩ | ⟨hop, rfl⟩ | ⟨hop, harg, rfl⟩ := decodeFields_cases h
    · exact ⟨rfl, by rwa [hop, harg] at hcmd, rfl⟩
    · exact ⟨decide_eq_true hn, by rwa [hop] at hcmd, rfl⟩
    · exact ⟨rfl, by rwa [hop, harg] at hcmd, rfl⟩
    · exact ⟨rfl, by rwa [hop] at hcmd, rfl⟩
    · exact ⟨rfl, by rwa [hop, harg] at hcmd, rfl⟩
  · rw [decode_of_rsv_ne_zero hrsv] at h
    cases h

/-- The data word of an encoded command is 0 for all but UPD (R40). -/
theorem encode_data_of_withData {i : Instr} {data : Word} (h : i.withData data = i) :
    (encode i).2 = if opField (encode i).1 = 2 then data else 0 := by
  rw [← h]
  cases i with
  | upd n d => exact (if_pos (opField_commandWord 2 n)).symm
  | init | fin | rdd | rds => simp [encode, Instr.withData]

/-- Settles O10: the word by its fields, the data word by the command it belongs to. -/
theorem encodeOfDecode : Obligations.EncodeOfDecode := by
  intro cmd data i h
  obtain ⟨hwf, rfl, hdata⟩ := decode_sound h
  exact ⟨hwf, rfl, encode_data_of_withData hdata⟩

/-! ## The legal words -/

/-- The command words of R34 and R36. -/
def legalWords : List Word :=
  [0x10000000, 0x20000000, 0x20000001, 0x20000002, 0x20000003, 0x20000004, 0x30000000, 0x40000000, 0x40000001, 0x40000002,
    0x40000003, 0x40000004, 0x40000005, 0x40000006, 0x40000007, 0x50000000]

theorem encode_mem_legalWords {i : Instr} (h : i.wellFormed = true) : (encode i).1 ∈ legalWords := by
  have hupd : ∀ n : BitVec 3, n.toNat ≤ 4 → commandWord 2 n ∈ legalWords := by decide
  have hrdd : ∀ w : BitVec 3, commandWord 4 w ∈ legalWords := by decide
  cases i with
  | init | fin | rds => simp only [encode]; decide
  | upd n data => exact hupd n (of_decide_eq_true h)
  | rdd w => exact hrdd w

/-- Each legal word decodes with data word 0, and so, by `legalityIgnoresData`, with every data word. -/
theorem decode_of_mem_legalWords {cmd : Word} (h : cmd ∈ legalWords) (data : Word) : ∃ i, decode cmd data = .ok i := by
  have hzero : legalWords.all (fun w => (decode w 0).isOk) = true := by decide
  cases hd : decode cmd data with
  | ok i => exact ⟨i, rfl⟩
  | error e =>
    have hok := List.all_eq_true.mp hzero cmd h
    rw [legalityIgnoresData cmd data 0 e hd] at hok
    cases hok

/-- Settles O8: a command's word is its encoding, and each of the sixteen words decodes. -/
theorem sixteenLegalWords : Obligations.SixteenLegalWords := by
  intro cmd data
  refine ⟨fun ⟨i, hi⟩ => ?_, fun h => decode_of_mem_legalWords h data⟩
  obtain ⟨hwf, rfl, -⟩ := decode_sound hi
  exact encode_mem_legalWords hwf

/-- Settles O12: each of the words by the decoder. -/
theorem encodingExamplesDecode : Obligations.EncodingExamplesDecode := ⟨rfl, rfl, rfl, rfl, rfl, rfl⟩

end Sys2Proof

namespace Sys2Proof.Machine

/-- Settles O3: a word outside the sixteen decodes to no command (O8), and a word that is no command raises ILLEGAL (R66). -/
theorem illegalWordOnlyRecordsFault : Obligations.IllegalWordOnlyRecordsFault := by
  intro c s hword
  cases hd : decode c.word c.data with
  | ok i => exact absurd ((sixteenLegalWords c.word c.data).mp ⟨i, hd⟩) hword
  | error e => exact acceptCommand_of_error hd s

end Sys2Proof.Machine
end

section
/-!
SUPPORT. What the ignored part of a data word is (R33): a command reads the lanes of its operand and no other bit, so that
`assemble`, which writes the ignored lanes 0 (R40), gives words that run the same commands.
-/

namespace Sys2Proof.Machine

/-! ## Lanes -/

/-- Data words that agree on the lanes below `n` have the same lanes. -/
theorem lanes_congr {n : BitVec 3} {d d' : Word}
    (h : ∀ k : Nat, k < 4 → k < n.toNat → d.extractLsb' (24 - 8 * k) 8 = d'.extractLsb' (24 - 8 * k) 8) :
    lanes n d = lanes n d' := by
  apply List.ext_getElem?
  intro k
  simp only [lanes, List.getElem?_take]
  split
  · rename_i hkn
    by_cases hk : k < 4
    · rw [be32_getElem? d hk, be32_getElem? d' hk, h k hk hkn]
    · rw [List.getElem?_eq_none (by simpa using hk), List.getElem?_eq_none (by simpa using hk)]
  · rfl

/-- Bit by bit, the lanes from `n` on are written 0 and the others kept. -/
theorem keepLanes_getLsbD (n : BitVec 3) (data : Word) (i : Nat) :
    (keepLanes n data).getLsbD i = (decide (32 - 8 * n.toNat ≤ i) && data.getLsbD i) := by
  by_cases hlt : i < 32
  · by_cases hi : 32 - 8 * n.toNat ≤ i
    · simp [keepLanes, hlt, hi]
    · simp [keepLanes, hi]
  · simp [keepLanes, hlt, BitVec.getLsbD_of_ge data i (by omega)]

theorem keepLanes_lane {n : BitVec 3} (hn : n.toNat ≤ 4) (data : Word) {k : Nat} (hk : k < 4) :
    (keepLanes n data).extractLsb' (24 - 8 * k) 8 = if k < n.toNat then data.extractLsb' (24 - 8 * k) 8 else 0 := by
  ext j hj
  rw [BitVec.getElem_extractLsb', keepLanes_getLsbD]
  by_cases hkn : k < n.toNat
  · have hin : 32 - 8 * n.toNat ≤ 24 - 8 * k + j := by omega
    simp [hkn, hin]
  · have hout : ¬ 32 - 8 * n.toNat ≤ 24 - 8 * k + j := by omega
    simp [hkn, hout]

theorem lanes_keepLanes {n : BitVec 3} (hn : n.toNat ≤ 4) (data : Word) : lanes n (keepLanes n data) = lanes n data :=
  lanes_congr fun _ hk hkn => (keepLanes_lane hn data hk).trans (if_pos hkn)

/-! ## Commands -/

/-- UPD reads its operand's lanes and nothing else of it (R68). -/
theorem exec_upd_congr {n : BitVec 3} {d d' : Word} (h : lanes n d = lanes n d') (s : State) :
    exec (.upd n d) s = exec (.upd n d') s := by
  change execUpd n d s = execUpd n d' s
  rw [execUpd, execUpd, h]

/-- A command does not depend on its data word, for an UPD as long as its lanes are the same. -/
theorem exec_withData {i : Instr} {data : Word} (h : ∀ n d, i = .upd n d → lanes n data = lanes n d) (s : State) :
    exec (i.withData data) s = exec i s := by
  cases i with
  | upd n d => exact exec_upd_congr (h n d rfl) s
  | init | fin | rdd | rds => rfl

theorem acceptCommand_of_ok {c : CommandPair} {i : Instr} (h : decode c.word c.data = .ok i) (s : State) :
    acceptCommand c s = exec i s := by
  simp [acceptCommand, h]

/-- Settles O13: with the other data word an illegal word is illegal too, and a command is the same but for UPD's operand, whose lanes
agree. -/
theorem ignoredDataHasNoEffect : Obligations.IgnoredDataHasNoEffect := by
  intro w d d' s hlanes
  cases hd : decode w d with
  | error e =>
    rw [acceptCommand_of_error hd, acceptCommand_of_error (legalityIgnoresData w d d' e hd)]
  | ok i =>
    obtain ⟨-, hword, hdata⟩ := decode_sound hd
    have hd' : decode w d' = .ok (i.withData d') := by
      rw [decode_withData w d d', hd]
      rfl
    rw [acceptCommand_of_ok hd, acceptCommand_of_ok hd']
    refine (exec_withData (fun n data hi => ?_) s).symm
    subst hi hword
    obtain rfl : d = data := by simpa [Instr.withData] using hdata
    refine (lanes_congr fun k hk hkn => hlanes ?_ k hk ?_).symm
    · exact opField_commandWord 2 n
    · simpa [encode] using hkn

/-! ## The assembled words -/

/-- The lines of R40 have the encoder's command words. -/
theorem assemble_word (i : Instr) : (assemble i).word = (encode i).1 := by
  have hupd : ∀ n : BitVec 3, (0x20000000 + n.setWidth 32 : Word) = commandWord 2 n := by decide
  have hrdd : ∀ w : BitVec 3, (0x40000000 + w.setWidth 32 : Word) = commandWord 4 w := by decide
  cases i with
  | init | fin | rds => decide
  | upd n data => exact hupd n
  | rdd w => exact hrdd w

/-- The words of a line of R40 decode to its command, with the data word of the line. -/
theorem decode_assemble {i : Instr} (h : i.wellFormed = true) :
    decode (assemble i).word (assemble i).data = .ok (i.withData (assemble i).data) := by
  rw [assemble_word, decode_withData _ (encode i).2, decodeOfEncode i h]
  rfl

theorem acceptCommand_assemble {i : Instr} (h : i.wellFormed = true) (s : State) :
    acceptCommand (assemble i) s = exec i s := by
  rw [acceptCommand_of_ok (decode_assemble h)]
  refine exec_withData (fun n d hi => ?_) s
  subst hi
  exact lanes_keepLanes (of_decide_eq_true h) d

/-- Settles O14: the command by what the words decode to, then each column of R40's table. -/
theorem assembledCommandActsAsItself : Obligations.AssembledCommandActsAsItself := by
  have hupd : ∀ n : BitVec 3, (0x20000000 + n.setWidth 32 : Word).toNat = 0x20000000 + n.toNat := by decide
  have hrdd : ∀ w : BitVec 3, (0x40000000 + w.setWidth 32 : Word).toNat = 0x40000000 + w.toNat := by decide
  refine ⟨fun i s hwf => acceptCommand_assemble hwf s, fun i _ => ?_, fun n data hn k hk => keepLanes_lane hn data hk,
    fun i hi => ?_⟩
  · cases i with
    | init | fin | rds => rfl
    | upd n data => exact hupd n
    | rdd w => exact hrdd w
  · cases i with
    | upd n data => exact absurd rfl (hi n data)
    | init | fin | rdd | rds => rfl

end Sys2Proof.Machine
end

section
/-!
SUPPORT. The digest of a message (R82) and the bytes that MSG sends (R41): INIT, UPDs that carry the message and FIN leave its digest in
`H`, and MSG is a sequence of UPDs that carries its argument.
-/

namespace Sys2Proof.Machine

/-! ## INIT, the message, FIN -/

theorem execAll_append {is js : List Instr} {s t : State} (h : execAll is s = .next t) :
    execAll (is ++ js) s = execAll js t := by
  induction is generalizing s with
  | nil =>
    cases h
    rfl
  | cons i is ih =>
    obtain ⟨u, hu⟩ := exec_next i s
    rw [execAll_cons hu] at h
    rw [List.cons_append, execAll_cons hu, ih h]

/-- A context without pending bytes that absorbs a message and then the padding for the message's length holds the message's digest. -/
theorem absorbAll_message_pad {s : State} (hH : s.H = IV) (hlen : s.len = 0) (m : List Byte) :
    (absorbAll (pad (absorbAll m s).len.toNat (BitVec.ofNat 64 (8 * m.length))) (absorbAll m s)).H = digestWords m := by
  have hpending : pending s = [] := by rw [← List.length_eq_zero_iff, pending_length, hlen]; rfl
  have hplace : (absorbAll m s).len.toNat = m.length % 64 := by rw [absorbAll_len, hlen]; simp
  rw [hplace, ← absorbAll_append, (absorbAll_blocks _ s).1, hpending, hH]
  rfl

/-- INIT, legal UPDs that carry a message, and FIN: the digest of the message, no usage fault, and nothing at the ports (R82). -/
theorem execAll_init_updCommands_fin {us : List (BitVec 3 × Word)} (hlegal : UpdLegal us)
    (hfit : 8 * (updMessage us).length ≤ 2 ^ 64 - 1) (s : State) :
    ∃ t, execAll (.init :: (updCommands us ++ [.fin])) s = .next t ∧ t.H = digestWords (updMessage us) ∧
      t.phase = .finalized ∧ t.err = s.err ∧ t.errCode = s.errCode ∧ t.rsp = s.rsp ∧ t.inputs = s.inputs ∧
      t.delivered = s.delivered := by
  have hinit : exec .init s = .next (effect .init s) := rfl
  have hcnt : (effect .init s).cnt.toNat = 0 := rfl
  have hupds := execAll_updCommands (s := effect .init s) hlegal nofun (by omega)
  have hfin : ∀ u : State, u.phase ≠ .finalized → execAll [.fin] u = .next (effect .fin u) := fun u hp =>
    execAll_cons (exec_effect ((usageFaultOf_fin_eq_none u).mpr hp)) []
  refine ⟨_, (execAll_cons hinit _).trans ((execAll_append hupds).trans (hfin _ ?_)), ?_, rfl, ?_, ?_, ?_, ?_, ?_⟩
  · dsimp only
    split <;> exact nofun
  · simp only [effect, absorbAll_withCnt_withPhase, zero_add]
    exact absorbAll_message_pad (s := effect .init s) rfl rfl _
  all_goals simp [effect]

/-! ## MSG -/

/-- The bytes of a word put together from four bytes (R11). -/
theorem be32_append (b0 b1 b2 b3 : Byte) : be32 (b0 ++ b1 ++ b2 ++ b3) = [b0, b1, b2, b3] := by
  have h0 : (b0 ++ b1 ++ b2 ++ b3).extractLsb' 24 8 = b0 := by
    rw [BitVec.extractLsb'_append_eq_of_le (by decide), BitVec.extractLsb'_append_eq_of_le (by decide)]
    exact BitVec.extractLsb'_append_eq_left
  have h1 : (b0 ++ b1 ++ b2 ++ b3).extractLsb' 16 8 = b1 := by
    rw [BitVec.extractLsb'_append_eq_of_le (by decide), BitVec.extractLsb'_append_eq_of_le (by decide)]
    exact BitVec.extractLsb'_append_eq_right
  have h2 : (b0 ++ b1 ++ b2 ++ b3).extractLsb' 8 8 = b2 := by
    rw [BitVec.extractLsb'_append_eq_of_le (by decide)]
    exact BitVec.extractLsb'_append_eq_right
  have h3 : (b0 ++ b1 ++ b2 ++ b3).extractLsb' 0 8 = b3 := BitVec.extractLsb'_append_eq_right
  simp only [be32, List.cons.injEq, and_true]
  exact ⟨h0, h1, h2, h3⟩

/-- The lanes of a sequence of at most four bytes sent in one UPD are the sequence. -/
theorem lanes_wordBe {bs : List Byte} (h : bs.length ≤ 4) : lanes (BitVec.ofNat 3 bs.length) (wordBe bs 0) = bs := by
  rw [lanes, wordBe, be32_append]
  match bs, h with
  | [], _ | [_], _ | [_, _], _ | [_, _, _], _ | [_, _, _, _], _ => rfl

/-- One UPD in front carries its bytes in front. -/
theorem updCommands_cons_carries {bs m : List Byte} {us : List (BitVec 3 × Word)} (h : bs.length ≤ 4)
    (hus : UpdLegal us ∧ updMessage us = m) :
    UpdLegal ((BitVec.ofNat 3 bs.length, wordBe bs 0) :: us) ∧
      updMessage ((BitVec.ofNat 3 bs.length, wordBe bs 0) :: us) = bs ++ m := by
  obtain ⟨hlegal, hmsg⟩ := hus
  refine ⟨List.forall_mem_cons.mpr ⟨?_, hlegal⟩, by rw [updMessage_cons, lanes_wordBe h, hmsg]⟩
  rw [BitVec.toNat_ofNat]
  omega

/-- Fewer than four bytes, but not none, are one UPD of MSG (R41). -/
theorem msgCommands_of_short {bs : List Byte} (hne : bs ≠ []) (h : bs.length < 4) :
    msgCommands bs = updCommands [(BitVec.ofNat 3 bs.length, wordBe bs 0)] := by
  match bs, hne, h with
  | [_], _, _ | [_, _], _, _ | [_, _, _], _, _ => rfl

/-- MSG is a sequence of legal UPDs that carries its bytes (R41). -/
theorem msgCommands_eq_updCommands (m : List Byte) :
    ∃ us, msgCommands m = updCommands us ∧ UpdLegal us ∧ updMessage us = m := by
  induction m using msgCommands.induct with
  | case1 => exact ⟨[], rfl, nofun, rfl⟩
  | case2 b0 b1 b2 b3 rest ih =>
    obtain ⟨us, hus, hcarries⟩ := ih
    refine ⟨(4, b0 ++ b1 ++ b2 ++ b3) :: us, ?_, updCommands_cons_carries (bs := [b0, b1, b2, b3]) le_rfl hcarries⟩
    rw [msgCommands, hus]
    rfl
  | case3 short hne hlong =>
    have hlen : short.length < 4 := by
      match short, hlong with
      | [], _ | [_], _ | [_, _], _ | [_, _, _], _ => simp
      | _ :: _ :: _ :: _ :: _, hlong => exact (hlong _ _ _ _ _ rfl).elim
    have hcarries := updCommands_cons_carries (us := []) (m := []) hlen.le ⟨nofun, rfl⟩
    rw [List.append_nil] at hcarries
    exact ⟨_, msgCommands_of_short hne hlen, hcarries⟩

end Sys2Proof.Machine
end

section
/-!
SUPPORT. A host that drives commands on the ports, sample by sample (R110, R111): a command that does not respond takes one sample, RDD
one more for its response.
-/

namespace Sys2Proof.Machine

/-! ## Runs -/

/-- A run of any machine goes on from the state a run before it ended in. -/
theorem run_add_of_next (M : Host.Core) {s t : M.State} {j : Nat} (h : M.run j s = .next t) (k : Nat) :
    M.run (j + k) s = M.run k t := by
  induction j generalizing s with
  | zero =>
    cases h
    rw [Nat.zero_add]
  | succ j ih =>
    rw [Nat.add_right_comm]
    cases hs : M.step s with
    | next u =>
      rw [run_succ_of_next M hs] at h ⊢
      exact ih h
    | fault r => simp [Host.Core.run, hs] at h
    | refused r => simp [Host.Core.run, hs] at h

theorem core_run_add {s t : State} {j : Nat} (h : Host.Core.run Sys2Proof.core j s = .next t) (k : Nat) :
    Host.Core.run Sys2Proof.core (j + k) s = Host.Core.run Sys2Proof.core k t :=
  run_add_of_next Sys2Proof.core h k

/-! ## What the host drives next -/

/-- No usage fault and no effect of a command depends on what the host drives next, and neither changes it. -/
theorem exec_withInputs {i : Instr} {s t : State} (h : exec i s = .next t) (is : List PortInput) :
    exec i { s with inputs := is } = .next { t with inputs := is } := by
  obtain ⟨f, hf, rfl⟩ | ⟨hf, rfl⟩ := exec_cases h
  · have hf' : usageFaultOf i { s with inputs := is } = some f := hf
    rw [exec_raises hf']
    cases isRead i <;> rfl
  · have hf' : usageFaultOf i { s with inputs := is } = none := hf
    rw [exec_effect hf']
    cases i with
    | init | rdd | rds => rfl
    | upd n data => simp only [effect, absorbAll_withInputs]
    | fin => simp only [effect, absorbAll_withInputs]

/-! ## One sample -/

/-- A block with no response pending carries out the command whose assembled words the host offers. -/
theorem step_offer_assemble {i : Instr} {s : State} {rest : List PortInput} (hwf : i.wellFormed = true) (hrsp : s.rsp = none)
    (hin : s.inputs = offerOnly (assemble i) :: rest) : step s = exec i { s with inputs := rest } := by
  have hready : cmdReady (offerOnly (assemble i)) { s with inputs := rest } = true := (cmdReady_iff _ _).mpr ⟨rfl, hrsp⟩
  rw [step_of_inputs_cons hin, reactTo, portAction_of_offered hready rfl]
  exact acceptCommand_assemble hwf _

/-- The host takes the response that is pending (R29). -/
theorem step_takeOnly {s : State} {w : Word} {rest : List PortInput} (hrsp : s.rsp = some w)
    (hin : s.inputs = takeOnly :: rest) : step s = .next (deliver w true { s with inputs := rest }) := by
  rw [step_of_inputs_cons hin]
  simp [reactTo, portAction, takeOnly, hrsp]

/-! ## Sequences of commands -/

theorem driveCommands_cons (i : Instr) (is : List Instr) : driveCommands (i :: is) = driveCommand i ++ driveCommands is := rfl

theorem driveCommands_append (is js : List Instr) : driveCommands (is ++ js) = driveCommands is ++ driveCommands js := by
  simp [driveCommands]

/-- Commands that do not respond, driven from a state with no response pending, are carried out one after another (R24). -/
theorem run_driveCommands_of_not_read {is : List Instr} {s t : State} {rest : List PortInput}
    (his : ∀ i ∈ is, i.wellFormed = true ∧ isRead i = false) (hrsp : s.rsp = none)
    (hin : s.inputs = driveCommands is ++ rest) (hexec : execAll is { s with inputs := rest } = .next t) :
    Host.Core.run Sys2Proof.core (driveCommands is).length s = .next t := by
  induction is generalizing s with
  | nil =>
    subst hin
    exact hexec
  | cons i is ih =>
    obtain ⟨⟨hwf, hread⟩, hrest⟩ := List.forall_mem_cons.mp his
    have hone : driveCommands (i :: is) = offerOnly (assemble i) :: driveCommands is := by
      simp [driveCommands_cons, driveCommand, hread]
    obtain ⟨u, hu⟩ := exec_next i { s with inputs := rest }
    have hu_rsp : u.rsp = none := by simpa [hread, hrsp] using onlyReadsRespond i _ u hu
    have hu_inputs : { u with inputs := rest } = u := by simpa using (exec_withInputs hu rest).symm.trans hu
    have hstep : step s = .next { u with inputs := driveCommands is ++ rest } := by
      rw [step_offer_assemble hwf hrsp (by rw [hin, hone]; rfl)]
      exact exec_withInputs hu _
    rw [execAll_cons hu, ← hu_inputs] at hexec
    rw [hone, List.length_cons, core_run_succ hstep]
    exact ih hrest hu_rsp rfl hexec

/-- An RDD in phase Finalized, driven from a state with no response pending: its word of `H` is delivered (R85, R111). -/
theorem run_driveCommand_rdd {w : BitVec 3} {s : State} {rest : List PortInput} (hp : s.phase = .finalized)
    (hrsp : s.rsp = none) (hin : s.inputs = driveCommand (.rdd w) ++ rest) :
    Host.Core.run Sys2Proof.core (driveCommand (.rdd w)).length s =
      .next { s with inputs := rest, delivered := s.delivered ++ [digestWord s.H w] } := by
  have hread : step s = .next (respond (digestWord s.H w) { s with inputs := takeOnly :: rest }) := by
    rw [step_offer_assemble rfl hrsp hin]
    exact exec_effect ((usageFaultOf_rdd_eq_none w _).mpr hp)
  have htake := step_takeOnly (respond_rsp (digestWord s.H w) { s with inputs := takeOnly :: rest }) rfl
  refine (core_run_succ hread 1).trans ((core_run_succ htake 0).trans ?_)
  rw [core_run_zero]
  simp [deliver, respond, hrsp]

/-- RDDs in phase Finalized deliver the words of `H` they ask for, in order. -/
theorem run_driveCommands_rdd {ws : List (BitVec 3)} {s : State} {rest : List PortInput} (hp : s.phase = .finalized)
    (hrsp : s.rsp = none) (hin : s.inputs = driveCommands (ws.map .rdd) ++ rest) :
    Host.Core.run Sys2Proof.core (driveCommands (ws.map .rdd)).length s =
      .next { s with inputs := rest, delivered := s.delivered ++ ws.map (digestWord s.H) } := by
  induction ws generalizing s with
  | nil =>
    subst hin
    simp [driveCommands, core_run_zero]
  | cons w ws ih =>
    rw [List.map_cons, driveCommands_cons, List.append_assoc] at hin
    rw [List.map_cons, driveCommands_cons, List.length_append, core_run_add (run_driveCommand_rdd hp hrsp hin)]
    have htail := ih (s := { s with
      inputs := driveCommands (ws.map .rdd) ++ rest, delivered := s.delivered ++ [digestWord s.H w] }) hp hrsp rfl
    simpa using htail

/-! ## HASH -/

/-- RDDIG reads the eight words of `H` in order (R42). -/
theorem rddigCommands_eq : rddigCommands = ((List.range 8).map (BitVec.ofNat 3)).map .rdd := rfl

theorem map_digestWord (h : Vector Word 8) : ((List.range 8).map (BitVec.ofNat 3)).map (digestWord h) = h.toList := by
  apply List.ext_getElem
  · simp
  · intro i hi _
    have hlt : i < 8 := by simpa using hi
    simp [digestWord, Nat.mod_eq_of_lt hlt]

/-- The commands of HASH before RDDIG are well formed and do not respond. -/
theorem init_updCommands_fin_not_read {us : List (BitVec 3 × Word)} (hlegal : UpdLegal us) :
    ∀ i ∈ (.init :: (updCommands us ++ [.fin]) : List Instr), i.wellFormed = true ∧ isRead i = false := by
  simp only [List.mem_cons, List.mem_append, List.not_mem_nil, or_false]
  rintro i (rfl | hi | rfl)
  · exact ⟨rfl, rfl⟩
  · obtain ⟨u, hu, rfl⟩ := List.mem_map.mp hi
    exact ⟨decide_eq_true (hlegal u hu), rfl⟩
  · exact ⟨rfl, rfl⟩

/-- Settles O46: INIT, MSG and FIN leave the digest of the message in `H` and nothing pending, and RDDIG delivers its words. -/
theorem hashPseudoCommandDeliversDigest : Obligations.HashPseudoCommandDeliversDigest := by
  intro m s rest hfit hrsp hin
  obtain ⟨us, hus, hlegal, rfl⟩ := msgCommands_eq_updCommands m
  have hcommands : hashCommands (updMessage us) = (.init :: (updCommands us ++ [.fin])) ++ rddigCommands := by
    simp [hashCommands, hus]
  rw [hcommands, driveCommands_append, List.append_assoc] at hin
  obtain ⟨t, hexec, hH, hphase, herr, hcode, htrsp, htin, htdel⟩ := execAll_init_updCommands_fin hlegal hfit
    { s with inputs := driveCommands rddigCommands ++ rest }
  have hwrite := run_driveCommands_of_not_read (init_updCommands_fin_not_read hlegal) hrsp hin hexec
  have hread := run_driveCommands_rdd (ws := (List.range 8).map (BitVec.ofNat 3)) hphase (htrsp.trans hrsp) htin
  rw [map_digestWord, hH, htdel] at hread
  rw [hcommands, driveCommands_append, List.length_append, core_run_add hwrite]
  refine ⟨_, hread, rfl, ?_, rfl, htrsp.trans hrsp, hphase, herr, hcode⟩
  rw [List.drop_left]
  rfl

end Sys2Proof.Machine
end

section
/-!
SUPPORT. The bits of the compression core's functions (R10, R47 to R50, R53, R54).
-/

namespace Sys2Proof.Machine

/-- Settles O16: bit by bit, by the value of `x`'s bit; from bit 32 on every bit is 0. -/
theorem chooseAndMajorityBits : Obligations.ChooseAndMajorityBits := by
  intro x y z i
  constructor
  · by_cases hi : i < 32
    · rw [ch, BitVec.getLsbD_xor, BitVec.getLsbD_and, BitVec.getLsbD_and, BitVec.getLsbD_not]
      cases x.getLsbD i <;> simp [hi]
    · simp [BitVec.getLsbD_of_ge _ i (not_lt.mp hi)]
  · cases hx : x.getLsbD i <;> cases hy : y.getLsbD i <;> simp [maj, hx, hy]

/-- The model's rotation is the library's (R10). -/
theorem rotr_eq_rotateRight (x : Word) {n : Nat} (hn : n < 32) : rotr x n = x.rotateRight n := by
  rw [rotr, BitVec.rotateRight_def, Nat.mod_eq_of_lt hn]

theorem rotr_getLsbD (x : Word) {n i : Nat} (hn : n < 32) (hi : i < 32) :
    (rotr x n).getLsbD i = x.getLsbD ((i + n) % 32) := by
  rw [rotr_eq_rotateRight x hn, BitVec.getLsbD_rotateRight, Nat.mod_eq_of_lt hn]
  by_cases h : i < 32 - n
  · have hlow : (i + n) % 32 = n + i := by omega
    simp [h, hlow]
  · have hwrap : (i + n) % 32 = i - (32 - n) := by omega
    simp [h, hi, hwrap]

theorem shr_getLsbD (x : Word) (n i : Nat) : (shr x n).getLsbD i = x.getLsbD (i + n) := by
  rw [shr, BitVec.getLsbD_ushiftRight, Nat.add_comm]

/-- Settles O17: each sigma function is an exclusive or of rotations and a shift. -/
theorem sigmaBits : Obligations.SigmaBits := by
  intro x i hi
  simp only [bigSigma0, bigSigma1, smallSigma0, smallSigma1, BitVec.getLsbD_xor, shr_getLsbD]
  simp [rotr_getLsbD x _ hi]

end Sys2Proof.Machine
end

section
/-!
SUPPORT. The round constants as cube roots of primes (R51): the primes 2 to 311 by trial division, and the roots checked by cubing.
-/

namespace Sys2Proof.Machine

/-- Entry `t` of a filtered range is the number at position `t` among those with the property. -/
theorem nth_of_filter_range_getElem? {p : Nat → Prop} [DecidablePred p] {n t q : Nat}
    (h : ((List.range n).filter p)[t]? = some q) : Nat.nth p t = q := by
  induction n with
  | zero => simp at h
  | succ n ih =>
    rw [List.range_succ, List.filter_append] at h
    by_cases ht : t < ((List.range n).filter p).length
    · exact ih (by rwa [List.getElem?_append_left ht] at h)
    · rw [List.getElem?_append_right (by omega)] at h
      by_cases hn : p n
      · obtain ⟨hlast, rfl⟩ : t - ((List.range n).filter p).length = 0 ∧ n = q := by
          simpa [hn, List.getElem?_singleton] using h
        have hcount : Nat.count p n = ((List.range n).filter p).length := List.countP_eq_length_filter
        rw [show t = Nat.count p n by omega, Nat.nth_count hn]
      · simp [hn] at h

/-- Trial division by the primes below 19. -/
def trialPrime (n : Nat) : Bool := decide (2 ≤ n) && [2, 3, 5, 7, 11, 13, 17].all fun d => decide (d ∣ n → d = n)

/-- Below 19², a number that is not prime has a prime factor below 19. -/
theorem trialPrime_iff {n : Nat} (h : n < 19 ^ 2) : trialPrime n = true ↔ n.Prime := by
  have hsmall : ∀ d < 19, d.Prime ↔ d ∈ [2, 3, 5, 7, 11, 13, 17] := by decide
  simp only [trialPrime, Bool.and_eq_true, List.all_eq_true, decide_eq_true_eq]
  constructor
  · rintro ⟨h2, hdiv⟩
    by_contra hn
    have hsq := Nat.minFac_sq_le_self (by omega) hn
    have hprime : n.minFac.Prime := Nat.minFac_prime (by omega)
    have hlt : n.minFac < 19 := lt_of_pow_lt_pow_left₀ 2 (by omega) (hsq.trans_lt h)
    exact hn (hdiv _ ((hsmall _ hlt).mp hprime) n.minFac_dvd ▸ hprime)
  · exact fun hp => ⟨hp.two_le, fun d hd hdvd => (hp.eq_one_or_self_of_dvd d hdvd).resolve_left (by rintro rfl; simp at hd)⟩

/-- The primes 2 to 311 (R51). -/
def roundPrimes : List Nat := (List.range 312).filter trialPrime

theorem nth_prime_of_roundPrimes {t p : Nat} (h : roundPrimes[t]? = some p) : Nat.nth Nat.Prime t = p := by
  refine nth_of_filter_range_getElem? (n := 312) ?_
  rwa [List.filter_congr (q := trialPrime) fun n hn => ?_]
  have hlt : n < 19 ^ 2 := by have := List.mem_range.mp hn; omega
  rw [Bool.eq_iff_iff, trialPrime_iff hlt, decide_eq_true_iff]

/-- The integer part of the cube root of `p` with the 32 fractional bits `k`, as a number of units of 2^-32. -/
def rootWithFraction (p : Nat) (k : Word) : Nat := Nat.nthRoot 3 p * 2 ^ 32 + k.toNat

/-- The first 32 fractional bits are the low ones. -/
theorem ofNat_rootWithFraction (p : Nat) (k : Word) : BitVec.ofNat 32 (rootWithFraction p k) = k := by
  apply BitVec.eq_of_toNat_eq
  rw [rootWithFraction, BitVec.toNat_ofNat, Nat.mul_add_mod_self_right, Nat.mod_eq_of_lt k.isLt]

/-- With its constant as the fraction, the root of each of the primes is the floor of the cube root, to 32 fractional bits (R51). -/
theorem roundPrimes_K_cubes : roundPrimes.length = 64 ∧ ∀ pk ∈ roundPrimes.zip K,
    rootWithFraction pk.1 pk.2 ^ 3 ≤ pk.1 * 2 ^ 96 ∧ pk.1 * 2 ^ 96 < (rootWithFraction pk.1 pk.2 + 1) ^ 3 := by
  decide +kernel

/-- Settles O19: the root of the prime at `t` has the fractional bits `K[t]`. -/
theorem roundConstantsFromCubeRoots : Obligations.RoundConstantsFromCubeRoots := by
  obtain ⟨hlen, hcubes⟩ := roundPrimes_K_cubes
  refine ⟨rfl, fun t ht => ⟨rootWithFraction roundPrimes[t] K[t], ?_⟩⟩
  rw [nth_prime_of_roundPrimes (List.getElem?_eq_getElem (hlen.symm ▸ ht)), ofNat_rootWithFraction]
  have hmem : (roundPrimes[t], K[t]) ∈ roundPrimes.zip K :=
    List.mem_iff_getElem.mpr ⟨t, by rwa [List.length_zip, hlen], List.getElem_zip⟩
  obtain ⟨hbelow, habove⟩ := hcubes _ hmem
  exact ⟨hbelow, habove, List.getElem?_eq_getElem _⟩

end Sys2Proof.Machine
end

section
/-!
SUPPORT. The message schedule (R55, R56): the load, the recurrence, and that nothing else satisfies both; and the sixteen-word window
that outputs the same words (R62).
-/

namespace Sys2Proof.Machine

/-! ## The recurrence -/

@[simp] theorem scheduleLoad_length (block : List Byte) : (scheduleLoad block).length = 16 := rfl

@[simp] theorem scheduleExpand_length (k : Nat) (w : List Word) : (scheduleExpand k w).length = w.length + k := by
  induction k generalizing w with
  | zero => rfl
  | succ k ih =>
    rw [scheduleExpand, ih, List.length_append, List.length_singleton]
    omega

@[simp] theorem schedule_length (block : List Byte) : (schedule block).length = 64 := by
  rw [schedule, scheduleExpand_length, scheduleLoad_length]

/-- The expansion keeps the words it starts from. -/
theorem scheduleExpand_extends (k : Nat) (w : List Word) : ∃ rest, scheduleExpand k w = w ++ rest := by
  induction k generalizing w with
  | zero => exact ⟨[], (List.append_nil w).symm⟩
  | succ k ih =>
    obtain ⟨rest, hrest⟩ := ih (w ++ [scheduleWord w])
    exact ⟨[scheduleWord w] ++ rest, by rw [scheduleExpand, hrest, List.append_assoc]⟩

/-- Each word after the first ones is the recurrence's word of those before it. -/
theorem scheduleExpand_getElem? {k t : Nat} {w : List Word} (hlow : w.length ≤ t) (hhigh : t < w.length + k) :
    (scheduleExpand k w)[t]? = some (scheduleWord ((scheduleExpand k w).take t)) := by
  induction k generalizing w with
  | zero => omega
  | succ k ih =>
    rw [scheduleExpand]
    by_cases ht : t = w.length
    · obtain ⟨rest, hrest⟩ := scheduleExpand_extends k (w ++ [scheduleWord w])
      rw [hrest, ht]
      simp
    · exact ih (by simp; omega) (by simp; omega)

/-- The recurrence's word of the first `t` words of a list, by its four terms (R56). -/
theorem scheduleWord_take {l : List Word} {t : Nat} (hlow : 16 ≤ t) (hhigh : t ≤ l.length) :
    scheduleWord (l.take t) =
      smallSigma1 (l.getD (t - 2) 0) + l.getD (t - 7) 0 + smallSigma0 (l.getD (t - 15) 0) + l.getD (t - 16) 0 := by
  have hlen : (l.take t).length = t := by rw [List.length_take, Nat.min_eq_left hhigh]
  have hget : ∀ d, 0 < d → d ≤ t → (l.take t).getD (t - d) 0 = l.getD (t - d) 0 := fun d hd hdt => by
    rw [List.getD_eq_getElem?_getD, List.getElem?_take_of_lt (by omega), ← List.getD_eq_getElem?_getD]
  rw [scheduleWord, hlen, hget 2 (by omega) (by omega), hget 7 (by omega) (by omega), hget 15 (by omega) (by omega),
    hget 16 (by omega) hlow]

/-- R55: the words of the load are the first ones of the schedule. -/
theorem schedule_getElem?_load (block : List Byte) {t : Nat} (ht : t < 16) :
    (schedule block)[t]? = some (wordBe block (4 * t)) := by
  obtain ⟨rest, hrest⟩ := scheduleExpand_extends 48 (scheduleLoad block)
  rw [schedule, hrest, List.getElem?_append_left ht]
  simp [scheduleLoad, ht]

/-- R56: the other words follow the recurrence. -/
theorem schedule_getElem?_recurrence (block : List Byte) {t : Nat} (hlow : 16 ≤ t) (hhigh : t < 64) :
    (schedule block)[t]? = some (smallSigma1 ((schedule block).getD (t - 2) 0) + (schedule block).getD (t - 7) 0 +
      smallSigma0 ((schedule block).getD (t - 15) 0) + (schedule block).getD (t - 16) 0) := by
  rw [← scheduleWord_take hlow (by rw [schedule_length]; omega)]
  exact scheduleExpand_getElem? hlow hhigh

/-- Settles O20: the load and the recurrence. -/
theorem scheduleFollowsRecurrence : Obligations.ScheduleFollowsRecurrence := fun block =>
  ⟨schedule_length block, fun _ => schedule_getElem?_load block, fun _ => schedule_getElem?_recurrence block⟩

/-- The schedule is the only sequence that satisfies the load and the recurrence. -/
theorem schedule_getElem?_eq {block : List Byte} {W : Nat → Word} (hload : ∀ t < 16, W t = wordBe block (4 * t))
    (hrec : ∀ t, 16 ≤ t → t < 64 → W t = smallSigma1 (W (t - 2)) + W (t - 7) + smallSigma0 (W (t - 15)) + W (t - 16))
    {t : Nat} (ht : t < 64) : (schedule block)[t]? = some (W t) := by
  induction t using Nat.strong_induction_on with
  | _ t ih =>
    by_cases hlow : t < 16
    · rw [schedule_getElem?_load block hlow, hload t hlow]
    · have hback : ∀ d, 0 < d → d ≤ 16 → (schedule block).getD (t - d) 0 = W (t - d) := fun d hd hd16 => by
        rw [List.getD_eq_getElem?_getD, ih (t - d) (by omega) (by omega), Option.getD_some]
      rw [schedule_getElem?_recurrence block (by omega) ht, hrec t (by omega) ht, hback 2 (by omega) (by omega),
        hback 7 (by omega) (by omega), hback 15 (by omega) (by omega), hback 16 (by omega) le_rfl]

/-! ## The window -/

/-- The recurrence reads the last sixteen words alone, so the window is enough (R56). -/
theorem scheduleWord_append_window (pre : List Word) {w : List Word} (hw : w.length = 16) :
    scheduleWord (pre ++ w) = windowNext w := by
  have hget : ∀ d i, d + i = 16 → (pre ++ w).getD (pre.length + 16 - d) 0 = w.getD i 0 := fun d i h => by
    rw [List.getD_append_right _ _ _ _ (by omega)]
    congr 1
    omega
  rw [scheduleWord, List.length_append, hw, hget 2 14 rfl, hget 7 9 rfl, hget 15 1 rfl, hget 16 0 rfl, windowNext]

/-- The words that stand in the window come out first. -/
theorem windowOutput_length_append (w e : List Word) : windowOutput w.length (w ++ e) = w := by
  induction w generalizing e with
  | nil => rfl
  | cons x w ih =>
    rw [List.length_cons, windowOutput, windowShift, List.cons_append, List.tail_cons, List.append_assoc, ih]
    rfl

/-- The window outputs its own words and then those of the expansion, whatever words came before it. -/
theorem scheduleExpand_append_window (k : Nat) (pre : List Word) {w : List Word} (hw : w.length = 16) :
    scheduleExpand k (pre ++ w) = pre ++ windowOutput (k + 16) w := by
  induction k generalizing pre w with
  | zero =>
    have hown := windowOutput_length_append w []
    rw [hw, List.append_nil] at hown
    rw [scheduleExpand, hown]
  | succ k ih =>
    match w, hw with
    | x :: w, hw =>
      calc scheduleExpand (k + 1) (pre ++ x :: w)
          = scheduleExpand k ((pre ++ [x]) ++ windowShift (x :: w)) := by
            rw [scheduleExpand, scheduleWord_append_window pre hw, windowShift]
            simp
        _ = pre ++ [x] ++ windowOutput (k + 16) (windowShift (x :: w)) := ih _ (by simpa [windowShift] using hw)
        _ = pre ++ windowOutput (k + 1 + 16) (x :: w) := by
            rw [Nat.add_right_comm, windowOutput, List.append_assoc]
            rfl

theorem windowOutput_scheduleLoad (block : List Byte) : windowOutput 64 (scheduleLoad block) = schedule block :=
  (scheduleExpand_append_window 48 [] (scheduleLoad_length block)).symm

end Sys2Proof.Machine
end

section
/-!
SUPPORT. The rounds (R57 to R60), as a sequence of working variables and as the rounds of the units (R62, R63).
-/

namespace Sys2Proof.Machine

/-- A sequence of working variables in which each round leads to the next ends where the rounds end. -/
theorem rounds_eq_of_sequence {kw : List (Word × Word)} {v : Nat → Working}
    (h : ∀ t (ht : t < kw.length), v (t + 1) = compressRound (v t) kw[t].1 kw[t].2) :
    rounds (v 0) kw = v kw.length := by
  induction kw generalizing v with
  | nil => rfl
  | cons p kw ih =>
    have hfirst : v 1 = compressRound (v 0) p.1 p.2 := h 0 (by simp)
    calc rounds (v 0) (p :: kw) = rounds (v 1) kw := by rw [hfirst]; rfl
      _ = v (kw.length + 1) := ih (v := fun t => v (t + 1)) fun t ht => h (t + 1) (by simpa using ht)

/-- Settles O21: the schedule is the given sequence, and the rounds lead along the given working variables. -/
theorem compressionFollowsRounds : Obligations.CompressionFollowsRounds := by
  intro hin block W v _ hload hrec hstart hround
  have hlen : (K.zip (schedule block)).length = 64 := by rw [List.length_zip, schedule_length]; rfl
  have hend : rounds (workingInit hin) (K.zip (schedule block)) = v 64 := by
    rw [← hlen, show workingInit hin = v 0 from hstart.symm]
    refine rounds_eq_of_sequence fun t ht => ?_
    have htK : t < K.length := ht.trans_eq hlen
    have hW : (schedule block)[t]'(by rwa [schedule_length]) = W t :=
      (List.getElem_eq_iff _).mpr (schedule_getElem?_eq hload hrec htK)
    rw [List.getElem_zip, hW, ← List.getD_eq_getElem K 0 htK]
    exact hround t htK
  rw [compress, hend, feedForward]

/-- The core unit runs the rounds of the constants from its round index on and of the words that the expander outputs. -/
theorem unitRounds_working (k : Nat) (u : CompressionUnit) (h : u.t + k ≤ K.length) :
    (unitRounds k u).working = rounds u.working ((K.drop u.t).zip (windowOutput k u.window)) := by
  induction k generalizing u with
  | zero => rw [windowOutput, List.zip_nil_right]; rfl
  | succ k ih =>
    have ht : u.t < K.length := by omega
    have hnext : (unitRound u).t + k ≤ K.length := by
      change u.t + 1 + k ≤ K.length
      omega
    rw [unitRounds, ih (unitRound u) hnext, List.drop_eq_getElem_cons ht, windowOutput,
      List.zip_cons_cons, rounds, rounds, List.foldl_cons, unitRound, List.getD_eq_getElem _ _ ht]

/-- Settles O22: the expander outputs the schedule, and the core unit's rounds are those of `compress`. -/
theorem unitsComputeCompression : Obligations.UnitsComputeCompression := by
  intro hin block
  refine ⟨windowOutput_scheduleLoad block, ?_⟩
  rw [unitRounds_working 64 (unitStart hin block) le_rfl, unitStart, windowOutput_scheduleLoad, List.drop_zero, compress]

end Sys2Proof.Machine
end

section
/-!
SUPPORT. An accepted command at the step (R25, R66), INIT (R67), and UPD: its faults (R68, R70), and its result where its bytes leave the
block unfilled and where they fill it (R68, R69, R73).
-/

namespace Sys2Proof.Machine

/-! ## The step and INIT -/

/-- Settles O2: the sample's action is to accept the command, and a command that decodes is carried out. -/
theorem stepRunsDecodedCommand : Obligations.StepRunsDecodedCommand := by
  intro s i rest c hin hrst hrsp hcmd
  have hready : cmdReady i { s with inputs := rest } = true := (cmdReady_iff _ _).mpr ⟨hrst, hrsp⟩
  have hstep : step s = acceptCommand c { s with inputs := rest } := by
    rw [step_of_inputs_cons hin, reactTo, portAction_of_offered hready hcmd]
  exact ⟨hstep, fun j hd => hstep.trans (acceptCommand_of_ok hd _)⟩

/-- Settles O23: the word has opcode 1 and argument 0, and INIT has its effect. -/
theorem initConstructsContext : Obligations.InitConstructsContext := fun data _ => ⟨decode_commandWord 1 0 data, rfl⟩

/-! ## The faults of UPD -/

theorem usageFaultOf_upd_of_finalized {n : BitVec 3} (hn : n.toNat ≤ 4) (data : Word) {s : State}
    (hp : s.phase = .finalized) : usageFaultOf (.upd n data) s = some .updAfterFinal := by
  simp [usageFaultOf, Instr.wellFormed, hn, hp]

theorem usageFaultOf_upd_of_overflow {n : BitVec 3} (hn : n.toNat ≤ 4) (data : Word) {s : State}
    (hp : s.phase ≠ .finalized) (hc : 2 ^ 64 ≤ s.cnt.toNat + 8 * n.toNat) :
    usageFaultOf (.upd n data) s = some .cntOverflow := by
  simp only [usageFaultOf, Instr.wellFormed, hn, hp, hc, decide_true, if_true, if_false]

/-- Settles O28: the table's fault is raised, whatever the BitCounter holds. -/
theorem updAfterFinalFaults : Obligations.UpdAfterFinalFaults := fun _ data _ hn hp =>
  exec_raises (usageFaultOf_upd_of_finalized hn data hp)

/-- Settles O29: the table's fault is raised. -/
theorem updOverflowFaults : Obligations.UpdOverflowFaults := fun _ data _ hn hp hc =>
  exec_raises (usageFaultOf_upd_of_overflow hn data hp (by omega))

/-! ## The result of UPD -/

theorem exec_upd_effect {n : BitVec 3} {s : State} (hn : n.toNat ≤ 4) (data : Word) (hp : s.phase ≠ .finalized)
    (hc : s.cnt.toNat + 8 * n.toNat < 2 ^ 64) : exec (.upd n data) s = .next (effect (.upd n data) s) :=
  exec_effect ((usageFaultOf_upd_eq_none n data s).mpr ⟨hn, hp, hc⟩)

/-- Settles O27: no byte is absorbed and nothing is added to the BitCounter, which no sum then overflows. -/
theorem updZeroOnlyMovesPhase : Obligations.UpdZeroOnlyMovesPhase := by
  intro data s hp
  have heffect : effect (.upd 0 data) s = { s with phase := .accumulating } := by simp [effect, lanes]
  rw [exec_upd_effect (by decide) data hp (by simpa using s.cnt.isLt), heffect]

/-- UPD leaves everything outside the digest context alone (R68). -/
theorem upd_effect_frame (n : BitVec 3) (data : Word) (s : State) :
    (effect (.upd n data) s).err = s.err ∧ (effect (.upd n data) s).errCode = s.errCode ∧
      (effect (.upd n data) s).rsp = s.rsp ∧ (effect (.upd n data) s).inputs = s.inputs ∧
      (effect (.upd n data) s).delivered = s.delivered := by
  simp [effect]

theorem upd_effect_len {n : BitVec 3} (hn : n.toNat ≤ 4) (data : Word) (s : State) :
    (effect (.upd n data) s).len.toNat = (s.len.toNat + n.toNat) % 64 := by
  rw [← lanes_length hn data]
  exact absorbAll_len _ s

/-- Byte `k` of an UPD is lane `k` of its data word (R33). -/
theorem lanes_getElem {n : BitVec 3} {data : Word} {k : Nat} (h : k < (lanes n data).length) :
    (lanes n data)[k] = data.extractLsb' (24 - 8 * k) 8 := by
  have hk : k < n.toNat ∧ k < 4 := by simpa [lanes] using h
  rw [List.getElem_eq_iff, lanes, List.getElem?_take_of_lt hk.1, be32_getElem? data hk.2]

/-- Settles O25: the bytes are stored from `len` on, the block is not filled, and UPD leaves the rest alone. -/
theorem updStoresIntoRoom : Obligations.UpdStoresIntoRoom := by
  intro n data s hn hp hc hroom
  have hlen := lanes_length hn data
  refine ⟨_, exec_upd_effect hn data hp (by omega), fun k hk => ?_, fun a ha => absorbAll_read_other _ s fun k hk => ?_,
    ?_, upd_effect_cnt (by omega), rfl, absorbAll_H_of_room (by omega), upd_effect_frame n data s⟩
  · have hk' : k < (lanes n data).length := by omega
    rw [← lanes_getElem hk']
    exact absorbAll_read_self _ s hk' (by omega)
  · omega
  · rw [upd_effect_len hn, Nat.mod_eq_of_lt hroom]

/-- Absorbing bytes that fill the PendingBuffer once compresses the block they complete and leaves the others pending. -/
theorem absorbAll_of_fill {bs : List Byte} {s : State} (hfull : 64 ≤ s.len.toNat + bs.length)
    (honce : s.len.toNat + bs.length < 128) :
    (absorbAll bs s).H = compress s.H (pending s ++ bs.take (64 - s.len.toNat)) ∧
      pending (absorbAll bs s) = bs.drop (64 - s.len.toNat) := by
  have hlt := s.len.isLt
  have hblock : (pending s ++ bs.take (64 - s.len.toNat)).length = 64 := by
    rw [List.length_append, pending_length, List.length_take]
    omega
  have hrest : (bs.drop (64 - s.len.toNat)).length < 64 := by
    rw [List.length_drop]
    omega
  have hsplit : pending s ++ bs = (pending s ++ bs.take (64 - s.len.toNat)) ++ bs.drop (64 - s.len.toNat) := by
    rw [List.append_assoc, List.take_append_drop]
  rw [(absorbAll_blocks bs s).1, (absorbAll_blocks bs s).2, hsplit, blocks_append hblock, tailBytes_append hblock,
    blocks_of_short hrest, tailBytes_of_short hrest]
  exact ⟨rfl, rfl⟩

/-- Settles O26: four bytes fill the block once, the cells written are those of the bytes, and UPD leaves the rest alone. -/
theorem updFillsBlock : Obligations.UpdFillsBlock := by
  intro n data s hn hp hc hfull
  have hlt := s.len.isLt
  have hlen := lanes_length hn data
  obtain ⟨hH, hpending⟩ := absorbAll_of_fill (bs := lanes n data) (s := s) (by omega) (by omega)
  refine ⟨_, exec_upd_effect hn data hp (by omega), hH, hpending, ?_,
    fun a ha => absorbAll_read_other _ s fun k hk => ha k (hlen ▸ hk), upd_effect_cnt (by omega), rfl,
    upd_effect_frame n data s⟩
  rw [upd_effect_len hn]
  omega

end Sys2Proof.Machine
end

section
/-!
SUPPORT. The bytes decide, not their split (R71), nor the path they take (R72): UPDs with the same bytes leave the same state, and the byte
path gives what the source's two-path update gives.
-/

namespace Sys2Proof.Machine

/-! ## The split into UPDs -/

/-- FIN gives the same state from any phase but Finalized. -/
theorem exec_fin_withPhase {s : State} {p : Phase} (hs : s.phase ≠ .finalized) (hp : p ≠ .finalized) :
    exec .fin { s with phase := p } = exec .fin s := by
  rw [exec_effect ((usageFaultOf_fin_eq_none _).mpr hp), exec_effect ((usageFaultOf_fin_eq_none s).mpr hs)]
  simp only [effect, absorbAll_withPhase]

/-- One command carried out alone (R24). -/
theorem execAll_singleton (i : Instr) (s : State) : execAll [i] s = exec i s := by
  obtain ⟨t, ht⟩ := exec_next i s
  rw [execAll_cons ht, ht, execAll]

/-- UPDs that carry no byte only make the phase Accumulating (R74). -/
theorem execAll_updCommands_of_no_bytes {us : List (BitVec 3 × Word)} {s : State} (hlegal : UpdLegal us) (hne : us ≠ [])
    (hbytes : updMessage us = []) (hp : s.phase ≠ .finalized) :
    execAll (updCommands us) s = .next { s with phase := .accumulating } := by
  have hfit : s.cnt.toNat + 8 * (updMessage us).length < 2 ^ 64 := by simpa [hbytes] using s.cnt.isLt
  rw [execAll_updCommands hlegal hp hfit, hbytes, if_neg hne]
  simp

/-- Settles O30: UPDs absorb the bytes they carry and add their number to the BitCounter, and FIN does not tell Empty from Accumulating. -/
theorem chunkingInvariance : Obligations.ChunkingInvariance := by
  refine ⟨fun us vs s hus hvs hune hvne hsame hp hfit => ?_, fun us s hlegal hne hbytes hp => ?_⟩
  · have hu := execAll_updCommands hus hp (by omega)
    have hv := execAll_updCommands hvs hp (by rw [← hsame]; omega)
    rw [if_neg hune] at hu
    rw [if_neg hvne, ← hsame] at hv
    exact ⟨_, hu, hv, absorbAll_err _ s⟩
  · have hu := execAll_updCommands_of_no_bytes hlegal hne hbytes hp
    refine ⟨hu, ?_⟩
    rw [execAll_append hu, execAll_singleton]
    exact exec_fin_withPhase hp nofun

/-! ## The two paths of the source -/

/-- Absorbing bytes gives the context of the direct path for the pending bytes and the new ones together. -/
theorem sourceContext_absorbAll (bs : List Byte) (s : State) :
    sourceContext (absorbAll bs s) = directPath { H := s.H, pending := [] } (pending s ++ bs) := by
  rw [sourceContext, (absorbAll_blocks bs s).1, (absorbAll_blocks bs s).2, directPath, List.nil_append]

/-- The direct path takes a whole block in front of its input first. -/
theorem directPath_append {block : List Byte} (h : block.length = 64) (hin : Vector Word 8) (p bs : List Byte) :
    directPath { H := hin, pending := p } (block ++ bs) = directPath { H := compress hin block, pending := p } bs := by
  rw [directPath, blocks_append h, tailBytes_append h]
  rfl

/-- The direct path copies an input shorter than a block into the PendingBuffer. -/
theorem directPath_of_short {bs : List Byte} (h : bs.length < 64) (c : SourceContext) :
    directPath c bs = { c with pending := c.pending ++ bs } := by
  rw [directPath, blocks_of_short h, tailBytes_of_short h]
  rfl

/-- The source's update of a context whose buffer is not full is the direct path for the pending bytes and the input together. -/
theorem sourceUpdate_eq_directPath (hin : Vector Word 8) {p : List Byte} (h : p.length < 64) (input : List Byte) :
    sourceUpdate { H := hin, pending := p } input = directPath { H := hin, pending := [] } (p ++ input) := by
  rw [sourceUpdate]
  dsimp only
  split
  next hempty =>
    obtain rfl := List.isEmpty_iff.mp hempty
    rfl
  next =>
    split
    next hshort =>
      rw [directPath_of_short (by simpa using hshort), List.nil_append]
    next hfull =>
      have hblock : (p ++ input.take (64 - p.length)).length = 64 := by
        rw [List.length_append, List.length_take]
        omega
      rw [← directPath_append hblock, List.append_assoc, List.take_append_drop]

/-- Settles O31: both are the direct path for the pending bytes and the input together. -/
theorem twoPathUpdateIsBytePath : Obligations.TwoPathUpdateIsBytePath := by
  intro input s
  have hroom : (pending s).length < 64 := (pending_length s).trans_lt s.len.isLt
  rw [sourceContext_absorbAll, sourceContext, sourceUpdate_eq_directPath s.H hroom]

end Sys2Proof.Machine
end

section
/-!
SUPPORT. The compressions of a byte sequence, of a command and of a whole message (R73, R79, R115).
-/

namespace Sys2Proof.Machine

/-- Absorbing a sequence compresses once for every block that the pending bytes and the new ones fill. -/
theorem compressionsIn_eq (bs : List Byte) (s : State) : compressionsIn bs s = (s.len.toNat + bs.length) / 64 := by
  induction bs generalizing s with
  | nil => rw [compressionsIn, List.length_nil, Nat.add_zero, Nat.div_eq_of_lt s.len.isLt]
  | cons b bs ih =>
    have hlt := s.len.isLt
    rw [compressionsIn, ih (absorb b s), absorb_len, List.length_cons]
    split <;> omega

/-- The padding at `p` fills the block, or the block and one more (R79). -/
theorem add_pad_length {p : Nat} (h : p < 64) (bits : BitVec 64) :
    p + (pad p bits).length = 64 * if p ≤ 55 then 1 else 2 := by
  rw [pad_length h]
  split <;> omega

theorem compressionsIn_pad (s : State) :
    compressionsIn (pad s.len.toNat s.cnt) s = if s.len.toNat ≤ 55 then 1 else 2 := by
  rw [compressionsIn_eq, add_pad_length s.len.isLt, Nat.mul_div_cancel_left _ (by decide)]

theorem compressionsOf_of_no_fault {i : Instr} {s : State} (h : usageFaultOf i s = none) :
    compressionsOf i s = compressionsWithoutFault i s.len.toNat := by
  simp [compressionsOf, h]

/-- A command whose row of the table is 0 compresses nothing, whether it faults or not. -/
theorem compressionsOf_eq_zero {i : Instr} {s : State} (h : compressionsWithoutFault i s.len.toNat = 0) :
    compressionsOf i s = 0 := by
  rw [compressionsOf, h, ite_self]

/-- At most four bytes fill the block at most once (R73). -/
theorem compressionsWithoutFault_upd {n : BitVec 3} (hn : n.toNat ≤ 4) (data : Word) {len : Nat} (hlen : len < 64) :
    compressionsWithoutFault (.upd n data) len = (len + n.toNat) / 64 := by
  rw [compressionsWithoutFault]
  split <;> omega

/-- INIT and the reads compress nothing, and neither does a command that faults (R115). -/
theorem compressionsOf_eq_zero_of_fault_or_init_or_read {i : Instr} {s : State}
    (h : (usageFaultOf i s).isSome = true ∨ i = .init ∨ isRead i = true) : compressionsOf i s = 0 := by
  obtain hf | rfl | hread := h
  · exact if_pos hf
  · exact compressionsOf_eq_zero rfl
  · cases i with
    | rdd | rds => exact compressionsOf_eq_zero rfl
    | init | upd | fin => cases hread

theorem paddedMessage_blocks_length (m : List Byte) :
    (blocks (paddedMessage m)).length = m.length / 64 + if m.length % 64 ≤ 55 then 1 else 2 := by
  have hpad := add_pad_length (Nat.mod_lt m.length (by decide : 0 < 64)) (BitVec.ofNat 64 (8 * m.length))
  rw [blocks_length, paddedMessage, List.length_append]
  omega

/-- Settles O38: the compressions by the bytes absorbed, the table's rows by the same numbers, and the message's blocks by its padded
length. -/
theorem compressionCounts : Obligations.CompressionCounts := by
  refine ⟨fun n data s hf => ?_, fun s hf => ?_, fun i s => compressionsOf_eq_zero_of_fault_or_init_or_read,
    paddedMessage_blocks_length⟩
  · obtain ⟨hn, -, -⟩ := (usageFaultOf_upd_eq_none n data s).mp hf
    rw [compressionsOf_of_no_fault hf, compressionsIn_eq, lanes_length hn,
      compressionsWithoutFault_upd hn data s.len.isLt]
    exact ⟨rfl, rfl⟩
  · rw [compressionsOf_of_no_fault hf, compressionsIn_pad]
    exact ⟨rfl, rfl⟩

end Sys2Proof.Machine
end

section
/-!
SUPPORT. The padding (R78): the number of its zero bytes, its two forms, and the padding formatter's stream (R84).
-/

namespace Sys2Proof.Machine

theorem padZeros_eq {p : Nat} (h : p ≤ 63) : padZeros p = if p ≤ 55 then 55 - p else 119 - p := by
  rw [padZeros]
  split <;> omega

/-- Settles O33: the zero bytes by their two closed forms, of which each number below falls short of 56 modulo 64. -/
theorem paddingFormat : Obligations.PaddingFormat := by
  intro p L hp
  have hk := padZeros_eq hp
  refine ⟨padZeros p, rfl, ?_, fun j hj => ?_, hk, pad_length (by omega) L⟩
  · rw [hk]
    split <;> omega
  · rw [hk] at hj
    split at hj <;> omega

/-- With at most 55 bytes pending the length still fits into the block. -/
theorem pad_of_le {p : Nat} (h : p ≤ 55) (L : BitVec 64) : pad p L = [0x80] ++ List.replicate (55 - p) 0 ++ be64 L := by
  rw [pad, padZeros_eq (by omega), if_pos h]

/-- With 56 or more bytes pending the zero bytes fill the block and 56 bytes of the next, which the length completes. -/
theorem pad_of_ge {p : Nat} (hlow : 56 ≤ p) (hhigh : p ≤ 63) (L : BitVec 64) :
    pad p L = [0x80] ++ List.replicate (63 - p) 0 ++ (List.replicate 56 0 ++ be64 L) := by
  have hsplit : 119 - p = (63 - p) + 56 := by omega
  rw [pad, padZeros_eq hhigh, if_neg (by omega), hsplit, List.replicate_add]
  simp only [List.append_assoc]

theorem pad_length_eq_padLength (p : Nat) (L : BitVec 64) : (pad p L).length = padLength p := by
  simp only [pad, padLength, List.length_append, List.length_singleton, List.length_replicate, be64_length]

/-- Byte `j` of the formatter's stream is byte `j` of the padding: 0x80, then a zero byte, then a byte of the length. -/
theorem pad_getElem?_eq_padByte {p j : Nat} (L : BitVec 64) (hj : j < padLength p) :
    (pad p L)[j]? = some (padByte p L j) := by
  cases j with
  | zero => rfl
  | succ j =>
    simp only [pad, List.cons_append, List.nil_append, List.getElem?_cons_succ]
    by_cases hzero : j < padZeros p
    · have hbyte : padByte p L (j + 1) = 0 := if_pos hzero
      rw [List.getElem?_append_left (by simpa using hzero), List.getElem?_replicate_of_lt hzero, hbyte]
    · have hlast : j - padZeros p < (be64 L).length := by
        rw [be64_length]
        rw [padLength] at hj
        omega
      have hbyte : padByte p L (j + 1) = (be64 L)[j - padZeros p] :=
        (if_neg hzero).trans (byteOf_eq_getElem hlast)
      rw [List.getElem?_append_right (by simpa using hzero), List.length_replicate, List.getElem?_eq_getElem hlast, hbyte]

/-- Settles O34: the stream has the padding's length and its bytes. -/
theorem paddingFormatterStream : Obligations.PaddingFormatterStream := by
  intro p L _
  apply List.ext_getElem
  · simp [pad_length_eq_padLength]
  · intro j hj _
    have hlt : j < padLength p := by simpa using hj
    rw [List.getElem_map, List.getElem_range, eq_comm, List.getElem_eq_iff]
    exact pad_getElem?_eq_padByte L hlt

end Sys2Proof.Machine
end

section
/-!
SUPPORT. FIN (R76): its result outside phase Finalized (R77, R79, R80), its fault in phase Finalized (R83), and the digest that INIT, the
message and FIN leave (R82).
-/

namespace Sys2Proof.Machine

/-! ## The result of FIN -/

/-- FIN with at most 55 bytes pending compresses one block: the pending bytes and the padding (R79). -/
theorem absorbAll_pad_H_of_le {s : State} (h : s.len.toNat ≤ 55) (L : BitVec 64) :
    (absorbAll (pad s.len.toNat L) s).H =
      compress s.H (pending s ++ [0x80] ++ List.replicate (55 - s.len.toNat) 0 ++ be64 L) := by
  have hlen : (pad s.len.toNat L).length = 64 - s.len.toNat := (pad_length s.len.isLt L).trans (if_pos h)
  rw [(absorbAll_of_fill (by omega) (by omega)).1, List.take_of_length_le hlen.le, pad_of_le h]
  simp only [List.append_assoc]

/-- FIN with 56 or more bytes pending compresses two blocks: the pending bytes, 0x80 and zero bytes, then zero bytes and the length
(R79). -/
theorem absorbAll_pad_H_of_ge {s : State} (h : 56 ≤ s.len.toNat) (L : BitVec 64) :
    (absorbAll (pad s.len.toNat L) s).H =
      compress (compress s.H (pending s ++ [0x80] ++ List.replicate (63 - s.len.toNat) 0))
        (List.replicate 56 0 ++ be64 L) := by
  have hlt := s.len.isLt
  have hfirst : (pending s ++ [0x80] ++ List.replicate (63 - s.len.toNat) 0).length = 64 := by simp; omega
  have hsecond : (List.replicate 56 0 ++ be64 L).length = 64 := by simp
  have hsplit : pending s ++ pad s.len.toNat L =
      (pending s ++ [0x80] ++ List.replicate (63 - s.len.toNat) 0) ++ ((List.replicate 56 0 ++ be64 L) ++ []) := by
    rw [pad_of_ge h (by omega)]
    simp only [List.append_assoc, List.append_nil]
  rw [(absorbAll_blocks _ s).1, hsplit, blocks_append hfirst, blocks_append hsecond, blocks_of_short (by decide)]
  rfl

/-- FIN adds eight to the BitCounter for each byte of the padding, modulo 2^64 (R80). -/
theorem fin_effect_cnt (s : State) :
    (effect .fin s).cnt.toNat = (s.cnt.toNat + 8 * (pad s.len.toNat s.cnt).length) % 2 ^ 64 := by
  simp only [effect, BitVec.toNat_add, BitVec.toNat_ofNat, Nat.add_mod_mod]

/-- FIN leaves everything outside the digest context alone (R76). -/
theorem fin_effect_frame (s : State) :
    (effect .fin s).err = s.err ∧ (effect .fin s).errCode = s.errCode ∧ (effect .fin s).rsp = s.rsp ∧
      (effect .fin s).inputs = s.inputs ∧ (effect .fin s).delivered = s.delivered := by
  simp [effect]

/-- Settles O35: one block or two by the padding's form, the BitCounter and the cells written by its length, and FIN leaves the rest
alone. -/
theorem finPadsAndFinalizes : Obligations.FinPadsAndFinalizes := by
  intro s hp
  have hlt := s.len.isLt
  refine ⟨effect .fin s, exec_effect ((usageFaultOf_fin_eq_none s).mpr hp), fun hle => ?_, fun hge => ?_,
    absorbAll_pad_len s.cnt s, rfl, fin_effect_frame s⟩
  · have hlen : (pad s.len.toNat s.cnt).length = 64 - s.len.toNat := (pad_length hlt s.cnt).trans (if_pos hle)
    exact ⟨absorbAll_pad_H_of_le hle s.cnt, hlen ▸ fin_effect_cnt s,
      fun a ha => absorbAll_read_other _ s fun k hk => by omega⟩
  · have hlen : (pad s.len.toNat s.cnt).length = 128 - s.len.toNat :=
      (pad_length hlt s.cnt).trans (if_neg (by omega))
    exact ⟨absorbAll_pad_H_of_ge hge s.cnt, hlen ▸ fin_effect_cnt s,
      fun a ha => absorbAll_read_other _ s fun k _ => by omega⟩

/-! ## FIN in phase Finalized -/

theorem usageFaultOf_fin_of_finalized {s : State} (hp : s.phase = .finalized) :
    usageFaultOf .fin s = some .finAfterFinal := if_pos hp

/-- Settles O36: the table's fault is raised. -/
theorem finAfterFinalFaults : Obligations.FinAfterFinalFaults := fun _ hp =>
  exec_raises (usageFaultOf_fin_of_finalized hp)

/-! ## The digest -/

/-- Settles O37: the digest words by the run of INIT, the UPDs and FIN, and their serialization with them. -/
theorem digestOfMessage : Obligations.DigestOfMessage := by
  intro us s hlegal hfit
  obtain ⟨t, hexec, hH, hphase, herr, hcode, -⟩ := execAll_init_updCommands_fin hlegal hfit s
  exact ⟨t, hexec, hH, congrArg serialize hH, hphase, herr, hcode⟩

end Sys2Proof.Machine
end

section
/-!
SUPPORT. The digest after FIN: its serialization (R81, R86), and that it stays until INIT or reset (R84).
-/

namespace Sys2Proof.Machine

/-! ## Serialization -/

/-- Each word takes four bytes, so leaving out the first `4 * i` bytes leaves out the first `i` words. -/
theorem flatMap_be32_drop (ws : List Word) (i : Nat) : (ws.flatMap be32).drop (4 * i) = (ws.drop i).flatMap be32 := by
  induction ws generalizing i with
  | nil => simp
  | cons w ws ih =>
    cases i with
    | zero => rfl
    | succ i =>
      have hdrop : 4 * (i + 1) = (be32 w).length + 4 * i := by rw [be32_length]; omega
      rw [List.flatMap_cons, hdrop, ← List.drop_drop, List.drop_left, ih, List.drop_succ_cons]

theorem serialize_length (h : Vector Word 8) : (serialize h).length = 32 := by
  simp [serialize, List.length_flatMap]

/-- From byte `4 * i` on the serialization begins with the bytes of `H[i]` (R81). -/
theorem serialize_drop (h : Vector Word 8) {i : Nat} (hi : i < 8) :
    (serialize h).drop (4 * i) = be32 h[i] ++ (h.toList.drop (i + 1)).flatMap be32 := by
  rw [serialize, flatMap_be32_drop, List.drop_eq_getElem_cons (by simpa using hi), List.flatMap_cons, Vector.getElem_toList]

theorem exec_rdd_of_finalized {s : State} (hp : s.phase = .finalized) (i : BitVec 3) :
    exec (.rdd i) s = .next (respond (digestWord s.H i) s) :=
  exec_effect ((usageFaultOf_rdd_eq_none i s).mpr hp)

/-- Settles O43: byte `k` from byte `4 * i` on is byte `k` of `H[i]`, the word RDD i responds. -/
theorem digestSerialization : Obligations.DigestSerialization := by
  refine ⟨fun h => ⟨serialize_length h, fun i hi k hk => ?_⟩, fun i s hp => ⟨_, _, exec_rdd_of_finalized hp i, rfl, ?_⟩⟩
  · rw [← List.getElem?_drop, serialize_drop h hi, List.getElem?_append_left hk, be32_getElem? _ hk]
  · rw [serialize_drop s.H i.isLt, List.take_left' (be32_length _)]
    rfl

/-! ## Phase Finalized is terminal -/

/-- In phase Finalized UPD and FIN raise a fault, so of the commands that raise none only INIT writes the phase or `H`. -/
theorem effect_of_finalized {i : Instr} {s : State} (hp : s.phase = .finalized) (hi : i ≠ .init)
    (hf : usageFaultOf i s = none) : (effect i s).phase = s.phase ∧ (effect i s).H = s.H := by
  cases i with
  | init => exact absurd rfl hi
  | upd n data =>
    obtain ⟨-, hne, -⟩ := (usageFaultOf_upd_eq_none n data s).mp hf
    exact absurd hp hne
  | fin => exact absurd hp ((usageFaultOf_fin_eq_none s).mp hf)
  | rdd | rds => exact ⟨rfl, rfl⟩

theorem exec_of_finalized {i : Instr} {s t : State} (hp : s.phase = .finalized) (hi : i ≠ .init)
    (he : exec i s = .next t) : t.phase = s.phase ∧ t.H = s.H := by
  obtain ⟨f, -, rfl⟩ | ⟨hf, rfl⟩ := exec_cases he
  · exact raised_phase_and_H i f s
  · exact effect_of_finalized hp hi hf

/-- INIT has one word (R34). -/
theorem word_of_decode_init {cmd data : Word} (h : decode cmd data = .ok .init) : cmd = 0x10000000 := by
  obtain ⟨-, hword, -⟩ := decode_sound h
  exact hword.symm

/-- Settles O50: a sample without reset moves the response port, leaves the block idle, or has a word accepted that is ILLEGAL or a
command other than INIT. -/
theorem finalizedIsTerminal : Obligations.FinalizedIsTerminal := by
  intro s t hstep hp hreset hinit
  obtain ⟨-, rfl⟩ | ⟨i, rest, hin, hreact⟩ := step_cases hstep
  · exact ⟨hp, rfl⟩
  · obtain ⟨hrst, -⟩ | ⟨-, w, -, rfl⟩ | ⟨-, -, -, rfl⟩ | ⟨-, -, c, e, -, -, rfl⟩ | ⟨-, -, c, j, hcmd, hd, hexec⟩ := hreact
    · simp [hreset i rest hin] at hrst
    · exact ⟨(deliver_phase w i.rspReady _).trans hp, deliver_H w i.rspReady _⟩
    · exact ⟨hp, rfl⟩
    · exact ⟨hp, rfl⟩
    · have hj : j ≠ .init := fun hj => hinit i rest c hin hcmd (word_of_decode_init (hj ▸ hd))
      obtain ⟨hphase, hH⟩ := exec_of_finalized (s := { s with inputs := rest }) hp hj hexec
      exact ⟨hphase.trans hp, hH⟩

end Sys2Proof.Machine
end

section
/-!
SUPPORT. The read commands (R85, R87): what RDD does in phase Finalized and outside it, and the word RDS responds, field by field (R21).
-/

namespace Sys2Proof.Machine

/-! ## RDD -/

/-- Settles O40: in phase Finalized RDD raises no fault and has its effect. -/
theorem rddReturnsDigestWord : Obligations.RddReturnsDigestWord := fun i _ hp => exec_rdd_of_finalized hp i

theorem usageFaultOf_rdd_of_not_finalized {s : State} (hp : s.phase ≠ .finalized) (i : BitVec 3) :
    usageFaultOf (.rdd i) s = some .rddNotFinal := if_neg hp

/-- Settles O41: the table's fault is raised, with the zero response of a read command. -/
theorem rddBeforeFinalFaults : Obligations.RddBeforeFinalFaults := fun i _ hp =>
  exec_raises (usageFaultOf_rdd_of_not_finalized hp i)

/-! ## STATUS -/

section StatusFields
variable (len : BitVec 6) (errCode : BitVec 4) (err : Bool) (phase : Phase)

theorem statusFields_phase : (statusFields len errCode err phase).extractLsb' 0 2 = phase.bits :=
  BitVec.extractLsb'_append_eq_right

theorem statusFields_bit_two : (statusFields len errCode err phase).getLsbD 2 = false := by
  rw [statusFields, BitVec.getLsbD_append, BitVec.getLsbD_append]
  rfl

theorem statusFields_err : (statusFields len errCode err phase).getLsbD 3 = err := by
  rw [statusFields, BitVec.getLsbD_append, BitVec.getLsbD_append, BitVec.getLsbD_append]
  simp

theorem statusFields_errCode : (statusFields len errCode err phase).extractLsb' 4 4 = errCode := by
  rw [statusFields, BitVec.extractLsb'_append_eq_of_le (by decide), BitVec.extractLsb'_append_eq_of_le (by decide),
    BitVec.extractLsb'_append_eq_of_le (by decide)]
  exact BitVec.extractLsb'_append_eq_right

/-- From bit 8 on, STATUS is PENDLEN with zeros above it. -/
theorem statusFields_from_bit_eight (start n : Nat) :
    (statusFields len errCode err phase).extractLsb' (start + 8) n = ((0 : BitVec 18) ++ len).extractLsb' start n := by
  rw [statusFields, BitVec.extractLsb'_append_eq_of_le (by omega), BitVec.extractLsb'_append_eq_of_le (by omega),
    BitVec.extractLsb'_append_eq_of_le (by omega), BitVec.extractLsb'_append_eq_of_le (by omega)]
  rfl

theorem statusFields_len : (statusFields len errCode err phase).extractLsb' 8 6 = len :=
  (statusFields_from_bit_eight len errCode err phase 0 6).trans BitVec.extractLsb'_append_eq_right

theorem statusFields_reserved : (statusFields len errCode err phase).extractLsb' 14 18 = 0 :=
  (statusFields_from_bit_eight len errCode err phase 6 18).trans BitVec.extractLsb'_append_eq_left

end StatusFields

/-- Settles O42: the word has opcode 5 and argument 0, and RDS responds STATUS, whose fields are those of the state. -/
theorem rdsReturnsStatus : Obligations.RdsReturnsStatus := fun data s =>
  ⟨decode_commandWord 5 0 data, statusWord s, rfl, statusFields_phase .., statusFields_bit_two .., statusFields_err ..,
    statusFields_errCode .., statusFields_len .., statusFields_reserved ..⟩

end Sys2Proof.Machine
end

section
/-!
SUPPORT. The states no host can tell apart (R88): each update of the state, then each command, then each step takes two such states to two
such states, so every run does.
-/

namespace Sys2Proof.Machine

/-! ## The updates -/

section Updates
variable {s t : State} (h : Indistinguishable s t)
include h

theorem raiseUsageFault_indistinguishable (f : UsageFault) :
    Indistinguishable (raiseUsageFault f s) (raiseUsageFault f t) := by
  obtain ⟨hphase, hlen, herr, hcode, hH, hcontext, hrsp, hin, hdel⟩ := h
  refine ⟨hphase, hlen, rfl, ?_, hH, hcontext, hrsp, hin, hdel⟩
  rw [raiseUsageFault_errCode, raiseUsageFault_errCode, herr, hcode]

theorem respond_indistinguishable (w : Word) : Indistinguishable (respond w s) (respond w t) := by
  obtain ⟨hphase, hlen, herr, hcode, hH, hcontext, -, hin, hdel⟩ := h
  exact ⟨hphase, hlen, herr, hcode, hH, hcontext, rfl, hin, hdel⟩

theorem deliver_indistinguishable (w : Word) (ready : Bool) : Indistinguishable (deliver w ready s) (deliver w ready t) := by
  cases ready with
  | false => exact h
  | true =>
    obtain ⟨hphase, hlen, herr, hcode, hH, hcontext, -, hin, hdel⟩ := h
    exact ⟨hphase, hlen, herr, hcode, hH, hcontext, rfl, hin, congrArg (· ++ [w]) hdel⟩

theorem resetBlock_indistinguishable : Indistinguishable (resetBlock s) (resetBlock t) := by
  obtain ⟨-, -, -, -, -, -, -, hin, hdel⟩ := h
  exact ⟨rfl, rfl, rfl, rfl, rfl, fun _ => ⟨rfl, rfl⟩, rfl, hin, hdel⟩

theorem withInputs_indistinguishable (is : List PortInput) :
    Indistinguishable { s with inputs := is } { t with inputs := is } := by
  obtain ⟨hphase, hlen, herr, hcode, hH, hcontext, hrsp, -, hdel⟩ := h
  exact ⟨hphase, hlen, herr, hcode, hH, hcontext, hrsp, rfl, hdel⟩

/-- Absorbing reads the PendingBuffer only at the pending bytes, which agree outside phase Finalized. -/
theorem absorbAll_withCnt_withPhase_indistinguishable (hp : s.phase ≠ .finalized) (bs : List Byte) (c : BitVec 64)
    (p : Phase) :
    Indistinguishable { absorbAll bs s with cnt := c, phase := p } { absorbAll bs t with cnt := c, phase := p } := by
  obtain ⟨-, hlen, herr, hcode, hH, hcontext, hrsp, hin, hdel⟩ := h
  obtain ⟨-, hpending⟩ := hcontext hp
  have hlen' : (absorbAll bs s).len = (absorbAll bs t).len := by
    apply BitVec.eq_of_toNat_eq
    rw [absorbAll_len, absorbAll_len, hlen]
  have hH' : (absorbAll bs s).H = (absorbAll bs t).H := by
    rw [(absorbAll_blocks bs s).1, (absorbAll_blocks bs t).1, hH, hpending]
  have hpending' : pending (absorbAll bs s) = pending (absorbAll bs t) := by
    rw [(absorbAll_blocks bs s).2, (absorbAll_blocks bs t).2, hpending]
  refine ⟨rfl, hlen', ?_, ?_, hH', fun _ => ⟨rfl, hpending'⟩, ?_, ?_, ?_⟩
  · simpa using herr
  · simpa using hcode
  · simpa using hrsp
  · simpa using hin
  · simpa using hdel

end Updates

/-! ## What a host sees of a state -/

section Observations
variable {s t : State} (h : Indistinguishable s t)
include h

theorem statusWord_eq_of_indistinguishable : statusWord s = statusWord t := by
  obtain ⟨hphase, hlen, herr, hcode, -⟩ := h
  rw [statusWord, statusWord, hphase, hlen, herr, hcode]

theorem cmdReady_eq_of_indistinguishable (i : PortInput) : cmdReady i s = cmdReady i t := by
  obtain ⟨-, -, -, -, -, -, hrsp, -⟩ := h
  rw [cmdReady, cmdReady, hrsp]

theorem rspValid_eq_of_indistinguishable (i : PortInput) : rspValid i s = rspValid i t := by
  obtain ⟨-, -, -, -, -, -, hrsp, -⟩ := h
  rw [rspValid, rspValid, hrsp]

theorem portAction_eq_of_indistinguishable (i : PortInput) : portAction i s = portAction i t := by
  obtain ⟨-, -, -, -, -, -, hrsp, -⟩ := h
  rw [portAction, portAction, hrsp]

/-- The BitCounter decides a usage fault outside phase Finalized only (R92). -/
theorem usageFaultOf_eq_of_indistinguishable (i : Instr) : usageFaultOf i s = usageFaultOf i t := by
  obtain ⟨hphase, -, -, -, -, hcontext, -⟩ := h
  cases i with
  | init | rds => rfl
  | fin | rdd => simp only [usageFaultOf, hphase]
  | upd n data =>
    by_cases hp : s.phase = .finalized
    · simp only [usageFaultOf, hp, ← hphase, if_true]
    · obtain ⟨hcnt, -⟩ := hcontext hp
      simp only [usageFaultOf, hphase, hcnt]

end Observations

/-! ## Commands, steps and runs -/

/-- Both outcomes are next states, and no host can tell the two apart. -/
def AnswerAlike (a b : Host.Outcome State Fault Refusal) : Prop :=
  ∃ s t, a = .next s ∧ b = .next t ∧ Indistinguishable s t

theorem answerAlike_next {s t : State} (h : Indistinguishable s t) : AnswerAlike (.next s) (.next t) :=
  ⟨s, t, rfl, rfl, h⟩

/-- UPD and FIN take `cnt` and the pending bytes from states outside phase Finalized, INIT writes them, the reads do not use them. -/
theorem effect_indistinguishable {i : Instr} {s t : State} (h : Indistinguishable s t) (hf : usageFaultOf i s = none) :
    Indistinguishable (effect i s) (effect i t) := by
  have hstatus := statusWord_eq_of_indistinguishable h
  obtain ⟨-, hlen, herr, hcode, hH, hcontext, hrsp, hin, hdel⟩ := id h
  cases i with
  | init => exact ⟨rfl, rfl, herr, hcode, rfl, fun _ => ⟨rfl, rfl⟩, hrsp, hin, hdel⟩
  | upd n data =>
    obtain ⟨-, hp, -⟩ := (usageFaultOf_upd_eq_none n data s).mp hf
    obtain ⟨hcnt, -⟩ := hcontext hp
    rw [effect, effect, ← hcnt]
    exact absorbAll_withCnt_withPhase_indistinguishable h hp _ _ _
  | fin =>
    have hp := (usageFaultOf_fin_eq_none s).mp hf
    obtain ⟨hcnt, -⟩ := hcontext hp
    rw [effect, effect, ← hlen, ← hcnt]
    exact absorbAll_withCnt_withPhase_indistinguishable h hp _ _ _
  | rdd w =>
    rw [effect, effect, ← hH]
    exact respond_indistinguishable h _
  | rds =>
    rw [effect, effect, ← hstatus]
    exact respond_indistinguishable h _

theorem exec_answerAlike {s t : State} (h : Indistinguishable s t) (i : Instr) : AnswerAlike (exec i s) (exec i t) := by
  have hfault := usageFaultOf_eq_of_indistinguishable h i
  cases hf : usageFaultOf i s with
  | none =>
    rw [exec_effect hf, exec_effect (hfault ▸ hf)]
    exact answerAlike_next (effect_indistinguishable h hf)
  | some f =>
    rw [exec_raises hf, exec_raises (hfault ▸ hf)]
    refine answerAlike_next (raiseUsageFault_indistinguishable ?_ f)
    cases isRead i with
    | true => exact respond_indistinguishable h 0
    | false => exact h

theorem acceptCommand_answerAlike {s t : State} (h : Indistinguishable s t) (c : CommandPair) :
    AnswerAlike (acceptCommand c s) (acceptCommand c t) := by
  cases hd : decode c.word c.data with
  | error e =>
    rw [acceptCommand_of_error hd, acceptCommand_of_error hd]
    exact answerAlike_next (raiseUsageFault_indistinguishable h .illegal)
  | ok i =>
    rw [acceptCommand_of_ok hd, acceptCommand_of_ok hd]
    exact exec_answerAlike h i

theorem reactTo_answerAlike {s t : State} (h : Indistinguishable s t) (i : PortInput) :
    AnswerAlike (reactTo i s) (reactTo i t) := by
  rw [reactTo, reactTo, ← portAction_eq_of_indistinguishable h i]
  cases portAction i s with
  | reset => exact answerAlike_next (resetBlock_indistinguishable h)
  | respondPort w ready => exact answerAlike_next (deliver_indistinguishable h w ready)
  | accept c => exact acceptCommand_answerAlike h c
  | idle => exact answerAlike_next h

theorem step_answerAlike {s t : State} (h : Indistinguishable s t) : AnswerAlike (step s) (step t) := by
  obtain ⟨-, -, -, -, -, -, -, hinputs, -⟩ := id h
  cases hin : s.inputs with
  | nil =>
    rw [step_of_inputs_nil hin, step_of_inputs_nil (hinputs ▸ hin)]
    exact answerAlike_next h
  | cons i rest =>
    rw [step_of_inputs_cons hin, step_of_inputs_cons (hinputs ▸ hin)]
    exact reactTo_answerAlike (withInputs_indistinguishable h rest) i

theorem run_answerAlike {s t : State} (h : Indistinguishable s t) (n : Nat) :
    AnswerAlike (Host.Core.run Sys2Proof.core n s) (Host.Core.run Sys2Proof.core n t) := by
  induction n generalizing s t with
  | zero => exact answerAlike_next h
  | succ n ih =>
    obtain ⟨s', t', hs, ht, h'⟩ := step_answerAlike h
    rw [core_run_succ hs, core_run_succ ht]
    exact ih h'

/-- Settles O54: every step keeps the two states indistinguishable, so every run does, and what the host sees is read off the two it
ends in. -/
theorem hiddenStateIsUnobservable : Obligations.HiddenStateIsUnobservable := by
  intro n s t h
  obtain ⟨s', t', hs, ht, h'⟩ := run_answerAlike h n
  obtain ⟨-, -, -, -, -, -, -, -, hdel⟩ := id h'
  exact ⟨s', t', hs, ht, h', statusWord_eq_of_indistinguishable h', hdel, fun i =>
    ⟨cmdReady_eq_of_indistinguishable h' i, rspValid_eq_of_indistinguishable h' i⟩⟩

end Sys2Proof.Machine
end

section
/-!
SUPPORT. The recorded error (R90, R94): a usage fault raised while ERR = 1 keeps ERR and ERRCODE, and so does every command.
-/

namespace Sys2Proof.Machine

/-- A later fault never hides an earlier one (R90, R94). -/
theorem raiseUsageFault_errCode_of_err {s : State} (h : s.err = true) (f : UsageFault) :
    (raiseUsageFault f s).errCode = s.errCode := by
  rw [raiseUsageFault_errCode, h, errCodeAfter_later]

theorem exec_keeps_recorded_error {i : Instr} {s t : State} (hwf : i.wellFormed = true) (herr : s.err = true)
    (he : exec i s = .next t) : t.err = true ∧ t.errCode = s.errCode := by
  cases hf : usageFaultOf i s with
  | some f =>
    cases (exec_of_usageFault hwf hf).symm.trans he
    cases isRead i <;> exact ⟨rfl, raiseUsageFault_errCode_of_err herr f⟩
  | none =>
    obtain ⟨t', he', herr', hcode'⟩ := exec_of_no_usageFault hwf hf
    cases he'.symm.trans he
    exact ⟨herr'.trans herr, hcode'⟩

/-- Settles O48: without reset, a sample moves the response port, leaves the block idle, raises a fault over the recorded one, or runs a
command. -/
theorem errorIsStickyUntilReset : Obligations.ErrorIsStickyUntilReset := by
  intro s t hstep hreset herr
  obtain ⟨-, rfl⟩ | ⟨i, rest, hin, hreact⟩ := step_cases hstep
  · exact ⟨herr, rfl⟩
  · obtain ⟨hrst, -⟩ | ⟨-, w, -, rfl⟩ | ⟨-, -, -, rfl⟩ | ⟨-, -, c, e, -, -, rfl⟩ | ⟨-, -, c, j, -, hd, hexec⟩ := hreact
    · simp [hreset i rest hin] at hrst
    · exact ⟨(deliver_err w i.rspReady _).trans herr, deliver_errCode w i.rspReady _⟩
    · exact ⟨herr, rfl⟩
    · exact ⟨rfl, raiseUsageFault_errCode_of_err (s := { s with inputs := rest }) herr .illegal⟩
    · obtain ⟨hwf, -, -⟩ := decode_sound hd
      exact exec_keeps_recorded_error (s := { s with inputs := rest }) hwf herr hexec

end Sys2Proof.Machine
end

section
/-!
SUPPORT. Several instances on one platform (R100): what a step of one of them can do to the platform.
-/

namespace Sys2Proof.Machine

/-- Everything a step of a platform can do: nothing at a position with no instance, or its own step in the instance's place. -/
theorem platformStep_cases {p q : Platform} {k : Nat} (h : platformStep p k = .next q) :
    (p[k]? = none ∧ q = p) ∨ ∃ s t, p[k]? = some s ∧ step s = .next t ∧ q = p.set k t := by
  unfold platformStep at h
  cases hk : p[k]? with
  | none => exact .inl ⟨rfl, by simpa [hk] using h.symm⟩
  | some s =>
    cases hs : step s with
    | next t => exact .inr ⟨s, t, rfl, hs, by simpa [hk, hs] using h.symm⟩
    | fault r | refused r => simp [hk, hs] at h

/-- Settles O55: a step writes at most position `k` of the list of instances, and there the next state of its own step. -/
theorem instancesAreIsolated : Obligations.InstancesAreIsolated := by
  intro p q k h
  obtain ⟨hk, rfl⟩ | ⟨s, t, hk, hs, rfl⟩ := platformStep_cases h
  · exact ⟨rfl, fun _ _ => rfl, fun s hs => by simp [hk] at hs⟩
  · refine ⟨List.length_set, fun j hj => List.getElem?_set_ne hj.symm, fun s' hs' => ?_⟩
    cases hk.symm.trans hs'
    obtain ⟨hlt, -⟩ := List.getElem?_eq_some_iff.mp hk
    exact ⟨t, hs, List.getElem?_set_self hlt⟩

end Sys2Proof.Machine
end

section
/-!
SUPPORT. The cycle bound (R114, R115): one `COMPRESS_CYCLES` for each compression of the bytes a command absorbs, and none for a command
that absorbs no byte.
-/

namespace Sys2Proof.Machine

/-- A command that raises a usage fault keeps `H` and the PendingBuffer (R13), and so does a read command (R30). -/
theorem exec_keeps_H_buf_of_fault_or_read {i : Instr} {s : State}
    (h : (usageFaultOf i s).isSome = true ∨ isRead i = true) : ∃ t, exec i s = .next t ∧ t.H = s.H ∧ t.buf = s.buf := by
  obtain hf | hread := h
  · obtain ⟨f, hf⟩ := Option.isSome_iff_exists.mp hf
    refine ⟨_, exec_raises hf, ?_⟩
    cases isRead i <;> exact ⟨rfl, rfl⟩
  · obtain ⟨t, ht⟩ := exec_next i s
    obtain ⟨hH, hbuf, -⟩ := read_context hread ht
    exact ⟨t, ht, hH, hbuf⟩

/-- A command that compresses nothing occupies the block for at most `CMD_CYCLES` (R8, R114). -/
theorem cycleBound_of_no_compression {i : Instr} {s : State} (h : compressionsOf i s = 0) :
    cycleBound i s = Config.cmdCycles := by
  rw [cycleBound, h, Nat.zero_mul, Nat.add_zero]

/-- Settles O39: the table's compressions are those counted over the bytes absorbed (O38), and UPD and FIN absorb just these bytes. -/
theorem cycleBoundCountsCompressions : Obligations.CycleBoundCountsCompressions := by
  obtain ⟨hupd, hfin, hzero, -⟩ := compressionCounts
  refine ⟨fun n data s hf => ⟨⟨_, exec_effect hf, rfl, rfl⟩, ?_⟩, fun s hf => ⟨⟨_, exec_effect hf, rfl, rfl⟩, ?_⟩,
    fun i s h => ⟨exec_keeps_H_buf_of_fault_or_read h, cycleBound_of_no_compression (hzero i s (h.imp_right .inr))⟩,
    fun s => ⟨⟨_, rfl, rfl, rfl⟩, cycleBound_of_no_compression (hzero .init s (.inr (.inl rfl)))⟩⟩
  · obtain ⟨-, hcount⟩ := hupd n data s hf
    rw [cycleBound, hcount]
  · obtain ⟨-, hcount⟩ := hfin s hf
    rw [cycleBound, hcount]

end Sys2Proof.Machine
end

section
/-!
SUPPORT. Reset (R106, R107), the hazard of an undelivered response (R29, R111), and that nothing stops the block (R90, R114).
-/

namespace Sys2Proof.Machine

/-! ## The action of a sample -/

/-- Reset overrides whatever else the sample drives (R107). -/
theorem portAction_of_reset {i : PortInput} (h : i.rstN = false) (s : State) : portAction i s = .reset := by
  simp [portAction, h]

/-- While a response is undelivered only the response port can move (R29, R111). -/
theorem portAction_of_pending {i : PortInput} {s : State} {w : Word} (hrst : i.rstN = true) (hrsp : s.rsp = some w) :
    portAction i s = .respondPort w i.rspReady := by
  simp [portAction, hrst, hrsp]

/-! ## Reset -/

/-- Settles O1: the fields and STATUS of the state after reset, then the ports by `rst_n` and the empty response register. -/
theorem resetLeavesConstructedContext : Obligations.ResetLeavesConstructedContext := by
  refine ⟨rfl, rfl, rfl, rfl, rfl, rfl, rfl, by decide, fun i s hrst => ?_, fun i hrst => ?_⟩
  · simp [cmdReady, rspValid, hrst]
  · exact (cmdReady_iff i State.reset).mpr ⟨hrst, rfl⟩

/-- Settles O4: the step is a reset of the state with the sample read. -/
theorem resetOverridesCommands : Obligations.ResetOverridesCommands := by
  intro s i rest hin hrst
  refine ⟨resetBlock { s with inputs := rest }, ?_, rfl, rfl, rfl, rfl, rfl, rfl, rfl, rfl, rfl⟩
  rw [step_of_inputs_cons hin, reactTo, portAction_of_reset hrst]

/-- Settles O24: INIT writes `H`, `len`, `cnt` and the phase, each with its value after reset, and leaves no byte pending. -/
theorem initIsResetOfContext : Obligations.InitIsResetOfContext := by
  intro s t he
  cases (exec_effect (i := .init) rfl).symm.trans he
  exact ⟨rfl, rfl, rfl, rfl, rfl, rfl, rfl, rfl, fun _ => ⟨rfl, rfl⟩, rfl, rfl, rfl⟩

/-- Settles O53: the state after reset is the reset of any state whose host's side is empty. -/
theorem resetMeetsInvariant : Obligations.ResetMeetsInvariant := resetBlock_inv State.reset

/-! ## An undelivered response -/

/-- Every read command has a response (R29). -/
theorem responseOf_of_read {i : Instr} (hread : isRead i = true) (s : State) : ∃ w, responseOf i s = some w := by
  cases i with
  | init | upd | fin => cases hread
  | rdd w =>
    by_cases hp : s.phase = .finalized
    · exact ⟨_, if_pos hp⟩
    · exact ⟨0, if_neg hp⟩
  | rds => exact ⟨_, rfl⟩

theorem exec_read_rsp {i : Instr} (hread : isRead i = true) (s : State) :
    ∃ t w, exec i s = .next t ∧ t.rsp = some w := by
  obtain ⟨t, ht⟩ := exec_next i s
  obtain ⟨w, hw⟩ := responseOf_of_read hread s
  exact ⟨t, w, ht, by simpa [hread, hw] using onlyReadsRespond i s t ht⟩

/-- A sample without reset delivers the undelivered response, or leaves it where it is (R29, R111). -/
theorem step_of_pending {s : State} {i : PortInput} {rest : List PortInput} {w : Word} (hin : s.inputs = i :: rest)
    (hrst : i.rstN = true) (hrsp : s.rsp = some w) : step s = .next (deliver w i.rspReady { s with inputs := rest }) := by
  rw [step_of_inputs_cons hin, reactTo, portAction_of_pending (s := { s with inputs := rest }) hrst hrsp]

/-- Settles O5: a read leaves its response (O44); while one is in the register the step is its delivery, by `rsp_ready`. -/
theorem undeliveredResponseBlocksCommands : Obligations.UndeliveredResponseBlocksCommands := by
  refine ⟨fun i s hread => exec_read_rsp hread s, fun s i rest w hin hrst hrsp => ?_⟩
  have hstep := step_of_pending hin hrst hrsp
  refine ⟨by simp [cmdReady, hrsp], by simp [rspValid, hrst, hrsp], fun htake => ?_, fun hwait => ?_⟩
  · rw [hstep, htake]
    rfl
  · rw [hstep, hwait]
    rfl

/-! ## Every step continues -/

/-- Every accepted word, legal or not, answers a next state (R90, R114). -/
theorem acceptCommand_next (c : CommandPair) (s : State) : ∃ t, acceptCommand c s = .next t := by
  cases hd : decode c.word c.data with
  | error e => exact ⟨_, acceptCommand_of_error hd s⟩
  | ok i =>
    rw [acceptCommand_of_ok hd]
    exact exec_next i s

theorem reactTo_next (i : PortInput) (s : State) : ∃ t, reactTo i s = .next t := by
  rw [reactTo]
  cases portAction i s with
  | reset | respondPort | idle => exact ⟨_, rfl⟩
  | accept c => exact acceptCommand_next c s

/-- Settles O7: with a sample left the step is the block's reaction to it, with none left it is idle. -/
theorem stepAlwaysContinues : Obligations.StepAlwaysContinues := by
  intro s
  cases hin : s.inputs with
  | nil => exact ⟨s, step_of_inputs_nil hin⟩
  | cons i rest =>
    rw [step_of_inputs_cons hin]
    exact reactTo_next i _

end Sys2Proof.Machine
end
